-- ==== Sys2Proof/Word.lean ====
section
/-! DEFINITION. Word.lean: the one word of the hardware, the unsigned 8-bit byte (spec/00_scope.md R6).
Addresses and the program counter are plain natural numbers (R6, R24), reached with `toNat`. -/

namespace Sys2Proof

/-- Every register value, memory cell, operand byte and flag-register value is an unsigned 8-bit number
(00_scope.md R6). -/
abbrev Byte := BitVec 8

end Sys2Proof
end

