-- ==== Sys2Proof/Syntax.lean ====
section
/-! DEFINITION. Syntax.lean: the 15 instructions (spec/30_encoding.md R62), one constructor per row of
spec/opcode_table.json, and their mnemonics as an enumeration, over which OPCODE_MAP is a map. -/

namespace Sys2Proof

/-- The mnemonics of 30_encoding.md R62. -/
inductive Mnemonic where
  | halt | ldi | prn | push | pop | call | ret | jmp | jeq | jne
  | add | sub | mul | div | cmp
  deriving DecidableEq, Repr

/-- An instruction with its operand BYTES (R64: "Operand bytes are used as they are"). A register operand is the
byte that names the register; whether it names one of the 8 is checked where the instruction uses it (10_state.md
R23), so a byte of 8 or above is no decoding error. DESIGN CHOICE, safe: log entry 10. -/
inductive Instr where
  /-- Format Z: stop the engine (R120). -/
  | halt
  /-- Format RI: `a` the destination register, `imm` the 8-bit immediate (R122). -/
  | ldi (a imm : Byte)
  /-- Format R: emit the register's value (R123). -/
  | prn (a : Byte)
  /-- Format R: push the register (R124). -/
  | push (a : Byte)
  /-- Format R: pop into the register (R126). -/
  | pop (a : Byte)
  /-- Format R: call the address the register holds (R140). -/
  | call (a : Byte)
  /-- Format Z: return to the popped address (R142). -/
  | ret
  /-- Format R: jump to the address the register holds (R144). -/
  | jmp (a : Byte)
  /-- Format R: jump if Equal is set (R146). -/
  | jeq (a : Byte)
  /-- Format R: jump if Equal is clear (R148). -/
  | jne (a : Byte)
  /-- Format RR: `a` the destination and first source, `b` the second source (R102). -/
  | add (a b : Byte)
  /-- Format RR (R103). -/
  | sub (a b : Byte)
  /-- Format RR (R104). -/
  | mul (a b : Byte)
  /-- Format RR (R105). -/
  | div (a b : Byte)
  /-- Format RR: both registers are only read (R108). -/
  | cmp (a b : Byte)
  deriving DecidableEq, Repr

end Sys2Proof
end

