-- ==== Sys2Proof/WellFormed.lean ====
section
/-! DEFINITION. WellFormed.lean: an instruction is well-formed when each of its register operands names one of the
8 registers, "A register index operand must be in 0..7" (spec/10_state.md R23): exactly the instructions the assembler
syntax of 30_encoding.md R68 can write. An instruction that is not well-formed still decodes, encodes and runs: it
raises BadRegister where it uses the index. -/

namespace Sys2Proof

/-- The operand bytes that are register indices (30_encoding.md R64); LDI's second operand is an immediate. -/
def Instr.regOperands : Instr → List Byte
  | .halt | .ret => []
  | .ldi a _ => [a]
  | .prn a | .push a | .pop a | .call a | .jmp a | .jeq a | .jne a => [a]
  | .add a b | .sub a b | .mul a b | .div a b | .cmp a b => [a, b]

/-- Every register operand is in 0..7 (10_state.md R23). -/
def Instr.wf (i : Instr) : Bool :=
  i.regOperands.all fun r => r.toNat < 8

end Sys2Proof
end

