-- ==== Sys2Proof/Decode.lean ====
section
/-! DEFINITION. Decode.lean: OPCODE_MAP, the formats, `classify` (spec/30_encoding.md R65), the decoder, total on any
bytes and rejecting by name, and after it the encoder. Decoder and encoder take the opcode map as an argument
(00_scope.md R4); the machine runs `opcodeMap`. -/

namespace Sys2Proof

/-! ### Formats and routes -/

/-- The four formats of 30_encoding.md R60. -/
inductive Format where
  | z | r | rr | ri
  deriving DecidableEq, Repr

/-- The two routes of an opcode (30_encoding.md R62, R63). -/
inductive Route where
  | alu | table
  deriving DecidableEq, Repr

/-- The format of each instruction (30_encoding.md R60, R61). -/
def Mnemonic.format : Mnemonic → Format
  | .halt | .ret => .z
  | .prn | .push | .pop | .call | .jmp | .jeq | .jne => .r
  | .add | .sub | .mul | .div | .cmp => .rr
  | .ldi => .ri

/-- The length in bytes of a format (30_encoding.md R60, R67). -/
def Format.length : Format → Nat
  | .z => 1
  | .r => 2
  | .rr | .ri => 3

/-- The five ALU operations, in the order of R62. -/
def aluMnemonics : List Mnemonic :=
  [.add, .sub, .mul, .div, .cmp]

/-- The ten entries of the dispatch table, in the order of R62. -/
def tableMnemonics : List Mnemonic :=
  [.halt, .ldi, .prn, .push, .pop, .call, .ret, .jmp, .jeq, .jne]

/-- The route of each instruction (30_encoding.md R61, R62). -/
def Mnemonic.route : Mnemonic → Route
  | .add | .sub | .mul | .div | .cmp => .alu
  | .halt | .ldi | .prn | .push | .pop | .call | .ret | .jmp | .jeq | .jne => .table

/-! ### The opcode map -/

/-- `OPCODE_MAP`: the numeric value of each mnemonic (00_scope.md R4). -/
abbrev OpcodeMap := Mnemonic → Byte

/-- What the spec's own facts ask of a map: no two mnemonics share a byte, and "bit 5 set ⇒ ALU path" with no
table-routed opcode having bit 5 set (30_encoding.md R63). -/
def OpcodeMap.Valid (om : OpcodeMap) : Prop :=
  (∀ m n, om m = om n → m = n) ∧ ∀ m, (om m).getLsbD 5 = true ↔ m.route = .alu

/-- The map the machine runs: the values of 30_encoding.md R61 (92_eei_decisions.md D1). PRESUMED by the spec
itself, "from general knowledge, not in source", unsafe: log entry 1. -/
def opcodeMap : OpcodeMap
  | .halt => 0x01
  | .ldi  => 0x82
  | .prn  => 0x47
  | .push => 0x45
  | .pop  => 0x46
  | .call => 0x50
  | .ret  => 0x11
  | .jmp  => 0x54
  | .jeq  => 0x55
  | .jne  => 0x56
  | .add  => 0xA0
  | .sub  => 0xA1
  | .mul  => 0xA2
  | .div  => 0xA3
  | .cmp  => 0xA7

/-! ### Decode -/

/-- The four outcomes of `classify` (30_encoding.md R65). -/
inductive OpcodeClass where
  | alu (m : Mnemonic)
  | table (m : Mnemonic)
  | unsupported
  | unknown
  deriving DecidableEq, Repr

/-- `classify(ir)` of 30_encoding.md R65: one test of bit 5, then a comparison of the whole byte (D3). -/
def classify (om : OpcodeMap) (ir : Byte) : OpcodeClass :=
  if ir.getLsbD 5 then
    match aluMnemonics.find? fun m => om m = ir with
    | some m => .alu m
    | none => .unsupported
  else
    match tableMnemonics.find? fun m => om m = ir with
    | some m => .table m
    | none => .unknown

/-- The three latches of a step (10_state.md R31): the bytes at pc, pc+1 and pc+2. They are no state. -/
structure Fetched where
  ir  : Byte
  opA : Byte
  opB : Byte
  deriving DecidableEq, Repr

/-- The instruction of a mnemonic with the operand bytes its format uses; the bytes the format marks "(ignored)" are
dropped (30_encoding.md R60, R64). -/
def Mnemonic.instr (m : Mnemonic) (a b : Byte) : Instr :=
  match m with
  | .halt => .halt
  | .ldi => .ldi a b
  | .prn => .prn a
  | .push => .push a
  | .pop => .pop a
  | .call => .call a
  | .ret => .ret
  | .jmp => .jmp a
  | .jeq => .jeq a
  | .jne => .jne a
  | .add => .add a b
  | .sub => .sub a b
  | .mul => .mul a b
  | .div => .div a b
  | .cmp => .cmp a b

/-- What decoding three fetched bytes gives: an instruction, or one of the two rejections of 30_encoding.md R66, each
with the opcode byte. -/
inductive Decoded where
  | instr (i : Instr)
  | unsupported (ir : Byte)
  | unknown (ir : Byte)
  deriving DecidableEq, Repr

/-- The decoder of the hardware, over the bytes a step fetches (40_engine_cycle.md R82). -/
def decode (om : OpcodeMap) (f : Fetched) : Decoded :=
  match classify om f.ir with
  | .alu m => .instr (m.instr f.opA f.opB)
  | .table m => .instr (m.instr f.opA f.opB)
  | .unsupported => .unsupported f.ir
  | .unknown => .unknown f.ir

/-! ### Encode -/

/-- The mnemonic of an instruction. -/
def Instr.mnemonic : Instr → Mnemonic
  | .halt => .halt
  | .ldi _ _ => .ldi
  | .prn _ => .prn
  | .push _ => .push
  | .pop _ => .pop
  | .call _ => .call
  | .ret => .ret
  | .jmp _ => .jmp
  | .jeq _ => .jeq
  | .jne _ => .jne
  | .add _ _ => .add
  | .sub _ _ => .sub
  | .mul _ _ => .mul
  | .div _ _ => .div
  | .cmp _ _ => .cmp

/-- The operand bytes of an instruction, in ascending address order (30_encoding.md R60). -/
def Instr.operands : Instr → List Byte
  | .halt | .ret => []
  | .prn a | .push a | .pop a | .call a | .jmp a | .jeq a | .jne a => [a]
  | .ldi a imm => [a, imm]
  | .add a b | .sub a b | .mul a b | .div a b | .cmp a b => [a, b]

/-- The bytes of an instruction: the opcode at pc, then its operand bytes (30_encoding.md R60, 20_memory.md R45). -/
def encode (om : OpcodeMap) (i : Instr) : List Byte :=
  om i.mnemonic :: i.operands

/-- The length of an instruction in bytes (30_encoding.md R60, R67). -/
def Instr.length (i : Instr) : Nat :=
  i.mnemonic.format.length

/-! ### Decoding a sequence of bytes

The hardware always fetches three bytes. A program image is a sequence of instructions of 1, 2 or 3 bytes packed with no
padding (20_memory.md R46), and the decoder below reads one from the front of such a sequence and gives the rest. It
adds one rejection of its own, for a sequence that ends inside an instruction (DESIGN CHOICE, safe: log entry 15). -/

/-- What decoding the front of a byte sequence gives. -/
inductive DecodedFront where
  | instr (i : Instr) (rest : List Byte)
  | unsupported (ir : Byte)
  | unknown (ir : Byte)
  | truncated (bytes : List Byte)
  deriving DecidableEq, Repr

/-- Reads one instruction from the front of a byte sequence. -/
def decodeFront (om : OpcodeMap) : List Byte → DecodedFront
  | [] => .truncated []
  | ir :: rest =>
    match decode om ⟨ir, rest.getD 0 0, rest.getD 1 0⟩ with
    | .instr i =>
      if i.operands.length ≤ rest.length then .instr i (rest.drop i.operands.length)
      else .truncated (ir :: rest)
    | .unsupported b => .unsupported b
    | .unknown b => .unknown b

/-! ### The opcode table's words -/

/-- Byte `k` of the word `w` of `nbits` bits, byte 0 the least significant: the first byte of the instruction
(spec/opcode_table.json numbers the bits so). Bits at `nbits` and above are 0. -/
def wordByte (nbits w k : Nat) : Byte :=
  BitVec.ofNat 8 ((w % 2 ^ nbits) >>> (8 * k))

/-- The three bytes of an opcode-table word, as they stand at pc, pc+1 and pc+2. -/
def fetchedOfWord (nbits w : Nat) : Fetched :=
  ⟨wordByte nbits w 0, wordByte nbits w 1, wordByte nbits w 2⟩

/-- The instruction the decoder reads from an opcode-table word; none where it rejects. -/
def decodeTableWord (nbits w : Nat) : Option Instr :=
  match decode opcodeMap (fetchedOfWord nbits w) with
  | .instr i => some i
  | .unsupported _ => none
  | .unknown _ => none

end Sys2Proof
end

