-- ==== Sys2Proof/Config.lean ====
section
/-! DEFINITION. Config.lean: the implementation parameters of spec/00_scope.md R4 that are not opcode values
(those are `opcodeMap` in Decode.lean). The OPEN ones are an argument, `OpenParams`; no parameter is a free value,
because no instruction of this hardware leaves a result undefined. -/

namespace Sys2Proof

/-- `SP_INDEX`: "Register 7 is reserved as the Stack Pointer" (00_scope.md R4, 10_state.md R21). -/
abbrev spReg : Fin 8 := 7

/-- `SP_INIT` (00_scope.md R4, 10_state.md R33). -/
def spInit : Byte := 0xF4

/-- `LOAD_BASE`: the image is loaded from address 0 (00_scope.md R4, 20_memory.md R47). -/
def loadBase : Nat := 0

/-- The OPEN parameters of 00_scope.md R4, "a parameter the model takes as an argument": the reset values of
R0..R6 (`REG_INIT`, D4), of FL (`FL_INIT`, D5) and of every memory cell the loader does not write (`MEM_INIT`, D6). -/
structure OpenParams where
  regInit : Fin 7 → Byte
  flInit  : Byte
  memInit : Fin 256 → Byte

/-- The values a deterministic reference simulator may use (92_eei_decisions.md D4, D5, D6): all zero.
DESIGN CHOICE, unsafe: log entries 2, 3 and 4. -/
def OpenParams.zero : OpenParams :=
  ⟨fun _ => 0, 0, fun _ => 0⟩

end Sys2Proof
end

