-- ==== Sys2Proof/Machine/State.lean ====
section
/-! DEFINITION. Machine/State.lean: the complete state of the CORE (spec/10_state.md, the tuple at its head), the fault and
refusal reasons, and the state right after reset (10_state.md R33). -/

namespace Sys2Proof.Machine

/-- `status` (10_state.md R28): RUNNING while the loop runs; HALTED after HALT or an unknown instruction; ABORTED after a
fatal error. -/
inductive Status where
  | running | halted | aborted
  deriving DecidableEq, Repr

/-- `cause` (10_state.md R28, 60_exceptions.md R161); its number is `Cause.code`. `none` is code 0, the normal halt. -/
inductive Cause where
  | none | unknownInstruction | unsupportedOperation | boundsFault | badRegister | divideByZero
  deriving DecidableEq, Repr

/-- The kinds an error can be raised with (60_exceptions.md R161, causes 1 to 5). -/
inductive ErrorKind where
  | unknownInstruction | unsupportedOperation | boundsFault | badRegister | divideByZero
  deriving DecidableEq, Repr

/-- Memory as a list of cells in one canonical form (`Memory.wf` in Machine/Ops.lean): the cells whose byte differs from
what an unlisted address reads as. -/
abbrev Memory := List Host.Cell

/-- Why the machine has no next state. Errors of the spec are not here: each of them is a next state (60_exceptions.md
R162). -/
inductive Fault where
  /-- Raised by `step` in a state whose status is not RUNNING: "In HALTED or ABORTED the engine has no step: these states
  are terminal" (40_engine_cycle.md R80). Safe: the engine does nothing there either. Log entry 5. -/
  | notRunning
  deriving DecidableEq, Repr

/-- Why the model gives no meaning. -/
inductive Refusal where
  /-- Raised by an arm of `exec` for an instruction that has no meaning yet; no arm does. Safe. -/
  | notModelled (mnemonic : String)
  /-- Raised by `launchWith` for an image of more than 256 bytes: "the model refuses it, and no run starts"
  (70_reset_and_hazards.md R182). No step raises it. Safe. Log entry 13. -/
  | imageTooLong (length : Nat)
  deriving DecidableEq, Repr

/-- The state of the CORE. "Nothing else persists from one step to the next." -/
structure State where
  /-- R0..R7, 8 bits each; R7 is the stack pointer (10_state.md R20, R21). -/
  regs   : Vector Byte 8
  /-- The program counter, a natural number with no wrap (10_state.md R24). -/
  pc     : Nat
  /-- The flag register, 8 bits: bit 0 Equal, bit 1 Greater-than, bit 2 Less-than (10_state.md R26). -/
  fl     : Byte
  /-- 256 cells of 8 bits (10_state.md R29, 20_memory.md R40). -/
  mem    : Memory
  /-- The run status (10_state.md R28). -/
  status : Status
  /-- The cause code (10_state.md R28). -/
  cause  : Cause
  /-- The information recorded with the cause (10_state.md R28). -/
  info   : Nat
  /-- The bytes PRN has emitted, oldest first (10_state.md R30). -/
  out    : List Byte
  deriving DecidableEq, Repr

/-- What a meaning and a step answer. -/
abbrev Result := Host.Outcome State Fault Refusal

/-- The machine right after reset (10_state.md R33), with no image loaded. R7, pc, status, cause, info and out are the
spec's values. R0..R6 and fl are OPEN in the spec; here they are 0, and memory lists nothing (DESIGN CHOICE, unsafe: log
entries 2, 3, 4). `State.resetWith` (Machine/Boot.lean) is reset for any values of the OPEN parameters. -/
def State.reset : State where
  regs   := #v[0, 0, 0, 0, 0, 0, 0, spInit]
  pc     := 0
  fl     := 0
  mem    := []
  status := .running
  cause  := .none
  info   := 0
  out    := []

end Sys2Proof.Machine
end

