-- ==== Sys2Proof/Machine/Flags.lean ====
section
/-! DEFINITION. Machine/Flags.lean: the flag register's bits (spec/10_state.md R26) and the one flag computation, CMP's
(41_alu.md R108). ADD, SUB, MUL and DIV compute no flag (41_alu.md R100). -/

namespace Sys2Proof.Machine

/-- Bit 0, E (Equal): read by JEQ and JNE (10_state.md R26). -/
def flagE (fl : Byte) : Bool := fl.getLsbD 0

/-- Bit 1, G (Greater-than): read by no instruction (10_state.md R26). -/
def flagG (fl : Byte) : Bool := fl.getLsbD 1

/-- Bit 2, L (Less-than): read by no instruction (10_state.md R26). -/
def flagL (fl : Byte) : Bool := fl.getLsbD 2

/-- The whole flag register after CMP of `x` with `y`, compared unsigned (41_alu.md R108). -/
def compareFlags (x y : Byte) : Byte :=
  if x = y then 0b00000001
  else if y.toNat < x.toNat then 0b00000010
  else 0b00000100

end Sys2Proof.Machine
end

