-- ==== Sys2Proof/Machine/Ops.lean ====
section
/-! DEFINITION. Machine/Ops.lean: the named operations over memory, registers, pc, flags and output (the primitives of
spec/00_scope.md R7), raising an error (60_exceptions.md R162) and halting. There is no trap entry and no trap return in
this hardware (R166): raising ends the run, so no return operation stands beside it. -/

namespace Sys2Proof.Machine

/-! ### Memory -/

/-- What an address that no cell lists reads as. DESIGN CHOICE, unsafe: log entry 4. -/
def Memory.unlisted : Byte := 0

/-- The byte at an address. -/
def Memory.read : Memory → Nat → Byte
  | [], _ => Memory.unlisted
  | (b, w) :: m, a => if a = b then w else Memory.read m a

/-- Puts a cell in front of a memory, unless it holds what an unlisted address reads as. -/
def Memory.cons (a : Nat) (v : Byte) (m : Memory) : Memory :=
  if v = Memory.unlisted then m else (a, v) :: m

/-- Writes the byte at an address, keeping the canonical form. -/
def Memory.write : Memory → Nat → Byte → Memory
  | [], a, v => Memory.cons a v []
  | (b, w) :: m, a, v =>
    if a < b then Memory.cons a v ((b, w) :: m)
    else if a = b then Memory.cons a v m
    else (b, w) :: Memory.write m a v

/-- Canonical from `lo` on: addresses strictly rising from at least `lo`, all of them below 256 (20_memory.md R40), no
cell holding what an unlisted address reads as. -/
def Memory.wfFrom : Nat → Memory → Bool
  | _, [] => true
  | lo, (a, v) :: m =>
    decide (lo ≤ a) && decide (a < 256) && decide (v ≠ Memory.unlisted) && Memory.wfFrom (a + 1) m

/-- The canonical form: equal contents are equal lists. -/
def Memory.wf (m : Memory) : Bool :=
  Memory.wfFrom 0 m

/-- The canonical list of `n` cells from address `a` on, holding what `f` gives. -/
def Memory.ofFunFrom (f : Nat → Byte) : Nat → Nat → Memory
  | _, 0 => []
  | a, n + 1 => Memory.cons a (f a) (Memory.ofFunFrom f (a + 1) n)

/-- The memory that holds `f a` at every address `a` of 0..255: 20_memory.md R40's "total map" as a list. -/
def Memory.ofFun (f : Fin 256 → Byte) : Memory :=
  Memory.ofFunFrom (fun a => if h : a < 256 then f ⟨a, h⟩ else Memory.unlisted) 0 256

/-! ### Registers, pc, flags, output -/

/-- `x[i]`: read a general register (00_scope.md R7). -/
def State.reg (s : State) (i : Fin 8) : Byte :=
  s.regs[i]

/-- `x[i] <- v` (00_scope.md R7). Every register is ordinary storage: none is hardwired (10_state.md R20). -/
def State.setReg (s : State) (i : Fin 8) (v : Byte) : State :=
  { s with regs := s.regs.set i v }

/-- `pc <- target` (00_scope.md R7). -/
def State.setPc (s : State) (target : Nat) : State :=
  { s with pc := target }

/-- `pc <- pc + n`, not reduced modulo 256 (40_engine_cycle.md R83, 10_state.md R24). -/
def State.advance (s : State) (n : Nat) : State :=
  { s with pc := s.pc + n }

/-- `fl <- v`: writes all 8 bits (00_scope.md R7). -/
def State.setFl (s : State) (v : Byte) : State :=
  { s with fl := v }

/-- The memory cell at an address the bounds check has passed. -/
def State.setByte (s : State) (addr : Nat) (v : Byte) : State :=
  { s with mem := s.mem.write addr v }

/-- `Emit(v)`: append byte v to the output stream (00_scope.md R7, 60_exceptions.md R171). -/
def State.emit (s : State) (v : Byte) : State :=
  { s with out := s.out ++ [v] }

/-! ### Ending the run -/

/-- The cause an error kind records (60_exceptions.md R161). -/
def ErrorKind.cause : ErrorKind → Cause
  | .unknownInstruction => .unknownInstruction
  | .unsupportedOperation => .unsupportedOperation
  | .boundsFault => .boundsFault
  | .badRegister => .badRegister
  | .divideByZero => .divideByZero

/-- The status an error kind leaves: "`status <- HALTED` if K is UnknownInstruction, else `status <- ABORTED`"
(60_exceptions.md R162). -/
def ErrorKind.status : ErrorKind → Status
  | .unknownInstruction => .halted
  | .unsupportedOperation | .boundsFault | .badRegister | .divideByZero => .aborted

/-- `raise K(v)`: the one operation that ends a step with an error, in three writes; "Nothing else is written"
(60_exceptions.md R162). It is applied to the state the step STARTED with, so that a step that raises writes none of
what its instruction would have written (R163). -/
def State.raise (s : State) (k : ErrorKind) (v : Nat) : State :=
  { s with status := k.status, cause := k.cause, info := v }

/-- `halt()`: "set `status <- HALTED` with `cause <- 0`" (00_scope.md R7). info is not written; in every reachable
running state it is 0 already (DEDUCED, log entry 6). -/
def State.halt (s : State) : State :=
  { s with status := .halted, cause := .none }

/-- The number of a cause (60_exceptions.md R161). -/
def Cause.code : Cause → Nat
  | .none => 0
  | .unknownInstruction => 1
  | .unsupportedOperation => 2
  | .boundsFault => 3
  | .badRegister => 4
  | .divideByZero => 5

/-! ### Checked memory access

`start` is the state the step began with: an error is raised from it, so that it is precise (60_exceptions.md R163;
DEDUCED, log entry 18). -/

/-- `MemRead(addr, 1)` in state `s` (20_memory.md R42), handing the byte on. -/
def memRead (start s : State) (addr : Nat) (next : Byte → Result) : Result :=
  if 255 < addr then .next (start.raise .boundsFault addr)
  else next (s.mem.read addr)

/-- `MemWrite(addr, 1, v)` in state `s` (20_memory.md R42), handing the state with the byte written on. -/
def memWrite (start s : State) (addr : Nat) (v : Byte) (next : State → Result) : Result :=
  if 255 < addr then .next (start.raise .boundsFault addr)
  else next (s.setByte addr v)

/-! ### The stack (20_memory.md R43, R47) -/

/-- The address SP holds: the top of the stack. -/
def State.stackTop (s : State) : Nat :=
  (s.reg spReg).toNat

/-- `x[7] <- (x[7] - 1) mod 256` (42_data_movement.md R124). -/
def State.decSp (s : State) : State :=
  s.setReg spReg (s.reg spReg - 1)

/-- `x[7] <- (x[7] + 1) mod 256` (42_data_movement.md R126). -/
def State.incSp (s : State) : State :=
  s.setReg spReg (s.reg spReg + 1)

/-- What "push" means in PUSH and CALL (42_data_movement.md R124, 43_control_transfer.md R140): decrement SP, then write
at the new SP. The value is read from the state with SP decremented already, as the order of the statements asks. -/
def push (s : State) (value : State → Byte) (next : State → Result) : Result :=
  memWrite s s.decSp s.decSp.stackTop (value s.decSp) next

/-- What "pop" means in POP and RET (42_data_movement.md R126, 43_control_transfer.md R142): read at SP and put the byte
where it goes, then increment SP as it stands after that. -/
def pop (s : State) (put : State → Byte → State) (next : State → Result) : Result :=
  memRead s s s.stackTop fun v => next (put s v).incSp

end Sys2Proof.Machine
end

