-- ==== Sys2Proof/Machine/Operands.lean ====
section
/-! DEFINITION. Machine/Operands.lean: the operand forms of spec/30_encoding.md R64. A register operand is an index byte,
checked where the instruction uses it; an immediate is the byte itself; an ignored byte never reaches a meaning. -/

namespace Sys2Proof.Machine

/-- The register an index byte names, if it names one: 0..7 (10_state.md R23). -/
def regIndex? (a : Byte) : Option (Fin 8) :=
  if h : a.toNat < 8 then some ⟨a.toNat, h⟩ else none

/-- Uses `a` as a register index: 8 or above raises BadRegister with that byte as info, before anything is written
(10_state.md R23). -/
def withReg (s : State) (a : Byte) (next : Fin 8 → Result) : Result :=
  match regIndex? a with
  | some r => next r
  | none => .next (s.raise .badRegister a.toNat)

/-- `check_ab(a, b)`: a first, then b (41_alu.md R101). -/
def withRegs (s : State) (a b : Byte) (next : Fin 8 → Fin 8 → Result) : Result :=
  withReg s a fun ra => withReg s b fun rb => next ra rb

end Sys2Proof.Machine
end

