-- ==== Sys2Proof/Machine/Alu.lean ====
section
/-! DEFINITION. Machine/Alu.lean: ADD, SUB, MUL, DIV, CMP (spec/41_alu.md). `a` is op_a and `b` is op_b. -/

namespace Sys2Proof.Machine

/-! ### The exact results, reduced modulo 256 (41_alu.md R100) -/

/-- `(x + y) mod 256`. -/
def aluAdd (x y : Byte) : Byte := BitVec.ofNat 8 (x.toNat + y.toNat)

/-- `(x - y) mod 256`, the mathematical remainder (00_scope.md R6). -/
def aluSub (x y : Byte) : Byte := BitVec.ofInt 8 ((x.toNat : Int) - (y.toNat : Int))

/-- `(x * y) mod 256`. -/
def aluMul (x y : Byte) : Byte := BitVec.ofNat 8 (x.toNat * y.toNat)

/-- `floor(x / y)`, for y ≠ 0 (41_alu.md R105). -/
def aluDiv (x y : Byte) : Byte := BitVec.ofNat 8 (x.toNat / y.toNat)

/-! ### The common frame (41_alu.md R101) -/

/-- `check_ab(a, b)`, then `x[a] <- f(x[a], x[b])`, then `pc <- pc + 3`. -/
def aluWrite (f : Byte → Byte → Byte) (a b : Byte) (s : State) : Result :=
  withRegs s a b fun ra rb => .next ((s.setReg ra (f (s.reg ra) (s.reg rb))).advance 3)

/-! ### The instructions -/

/-- ADD: "reg[a] += reg[b]" (41_alu.md R102). -/
def execAdd (a b : Byte) (s : State) : Result :=
  aluWrite aluAdd a b s

/-- SUB: "reg[a] -= reg[b]" (41_alu.md R103). -/
def execSub (a b : Byte) (s : State) : Result :=
  aluWrite aluSub a b s

/-- MUL: "reg[a] *= reg[b]" (41_alu.md R104). -/
def execMul (a b : Byte) (s : State) : Result :=
  aluWrite aluMul a b s

/-- DIV: unsigned integer division; after the index checks, a zero divisor raises DivideByZero with DIV's opcode byte
(0xA3) as info, and x[a] keeps its value (41_alu.md R105, 60_exceptions.md R161; log entry 14). -/
def execDiv (a b : Byte) (s : State) : Result :=
  withRegs s a b fun ra rb =>
    if s.reg rb = 0 then .next (s.raise .divideByZero (opcodeMap .div).toNat)
    else .next ((s.setReg ra (aluDiv (s.reg ra) (s.reg rb))).advance 3)

/-- CMP: writes all 8 bits of fl and no register (41_alu.md R108). -/
def execCmp (a b : Byte) (s : State) : Result :=
  withRegs s a b fun ra rb => .next ((s.setFl (compareFlags (s.reg ra) (s.reg rb))).advance 3)

end Sys2Proof.Machine
end

