-- ==== Sys2Proof/Machine/Control.lean ====
section
/-! DEFINITION. Machine/Control.lean: CALL, RET, JMP, JEQ, JNE (spec/43_control_transfer.md). `a` is op_a. Every target is an
absolute 8-bit address, checked only when it is fetched (R149). -/

namespace Sys2Proof.Machine

/-- `pc <- x[a]`, with the index checked. -/
def jumpTo (a : Byte) (s : State) : Result :=
  withReg s a fun ra => .next (s.setPc (s.reg ra).toNat)

/-- A conditional jump: the index is checked only on the taken path; else pc + 2 (R146, R148). -/
def branchIf (taken : Bool) (a : Byte) (s : State) : Result :=
  if taken then jumpTo a s else .next (s.advance 2)

/-- CALL: "push (PC+2) onto stack; PC = reg[op_a]", in that order, so CALL R7 goes to the decremented SP. The pushed byte
is pc + 2, which fits in one byte at every pc a step can execute from (R140; log entry 7). -/
def execCall (a : Byte) (s : State) : Result :=
  withReg s a fun ra =>
    push s (fun _ => BitVec.ofNat 8 (s.pc + 2)) fun t => .next (t.setPc (t.reg ra).toNat)

/-- RET: "pop return address into PC" (R142). -/
def execRet (s : State) : Result :=
  pop s (fun t v => t.setPc v.toNat) fun t => .next t

/-- JMP: "PC = reg[op_a]" (R144). -/
def execJmp (a : Byte) (s : State) : Result :=
  jumpTo a s

/-- JEQ: "if Equal flag set: PC = reg[op_a]; else PC += 2" (R146). -/
def execJeq (a : Byte) (s : State) : Result :=
  branchIf (flagE s.fl) a s

/-- JNE: "if Equal flag clear: PC = reg[op_a]; else PC += 2" (R148). -/
def execJne (a : Byte) (s : State) : Result :=
  branchIf (!flagE s.fl) a s

end Sys2Proof.Machine
end

