-- ==== Sys2Proof/Machine/Data.lean ====
section
/-! DEFINITION. Machine/Data.lean: HALT, LDI, PRN, PUSH, POP (spec/42_data_movement.md). `a` is op_a. -/

namespace Sys2Proof.Machine

/-- HALT: `halt()`; pc keeps the address of the HALT (42_data_movement.md R120). -/
def execHalt (s : State) : Result :=
  .next s.halt

/-- LDI: "reg[op_a] = op_b (immediate load)"; pc + 3 (42_data_movement.md R122). -/
def execLdi (a imm : Byte) (s : State) : Result :=
  withReg s a fun ra => .next ((s.setReg ra imm).advance 3)

/-- PRN: emits x[a]; pc + 2 (42_data_movement.md R123). -/
def execPrn (a : Byte) (s : State) : Result :=
  withReg s a fun ra => .next ((s.emit (s.reg ra)).advance 2)

/-- PUSH: "SP -= 1; mem[SP] = reg[op_a]", in that order, so PUSH R7 stores the decremented SP; pc + 2
(42_data_movement.md R124). -/
def execPush (a : Byte) (s : State) : Result :=
  withReg s a fun ra => push s (fun t => t.reg ra) fun t => .next (t.advance 2)

/-- POP: "reg[op_a] = mem[SP]; SP += 1", in that order, so POP R7 ends at the popped byte plus 1; pc + 2
(42_data_movement.md R126). -/
def execPop (a : Byte) (s : State) : Result :=
  withReg s a fun ra => pop s (fun t v => t.setReg ra v) fun t => .next (t.advance 2)

end Sys2Proof.Machine
end

