-- ==== Sys2Proof/Machine/Fetch.lean ====
section
/-! DEFINITION. Machine/Fetch.lean: the three reads that begin every step (spec/40_engine_cycle.md R81), the two errors of
decode (R82), and storing an opcode-table word where the next step fetches. -/

namespace Sys2Proof.Machine

/-- The bytes at pc, pc+1 and pc+2, as they stand in memory. -/
def State.fetched (s : State) : Fetched :=
  ⟨s.mem.read s.pc, s.mem.read (s.pc + 1), s.mem.read (s.pc + 2)⟩

/-- Reads the bytes at pc, pc+1 and pc+2, in this order, whatever the instruction's format; the first address above 255
raises BoundsFault with that address, before decode (40_engine_cycle.md R81). -/
def fetch (s : State) (next : Fetched → Result) : Result :=
  memRead s s s.pc fun ir =>
    memRead s s (s.pc + 1) fun opA =>
      memRead s s (s.pc + 2) fun opB => next ⟨ir, opA, opB⟩

/-- Routes what decode gave (40_engine_cycle.md R82): an instruction to its meaning, the two rejections to their errors
with the opcode byte as info (60_exceptions.md R161). -/
def route (run : Instr → State → Result) (d : Decoded) (s : State) : Result :=
  match d with
  | .instr i => run i s
  | .unsupported ir => .next (s.raise .unsupportedOperation ir.toNat)
  | .unknown ir => .next (s.raise .unknownInstruction ir.toNat)

/-- Writes a byte where the address exists, and nothing where it does not. -/
def State.pokeByte (s : State) (addr : Nat) (v : Byte) : State :=
  if addr < 256 then s.setByte addr v else s

/-- Stores three bytes at pc, pc+1 and pc+2. -/
def State.pokeFetched (s : State) (f : Fetched) : State :=
  ((s.pokeByte s.pc f.ir).pokeByte (s.pc + 1) f.opA).pokeByte (s.pc + 2) f.opB

end Sys2Proof.Machine
end

