-- ==== Sys2Proof/Machine/Step.lean ====
section
/-! DEFINITION. Machine/Step.lean: one step of the fetch-decode-execute loop (spec/40_engine_cycle.md R84). -/

namespace Sys2Proof.Machine

/-- One step, defined only while status is RUNNING (40_engine_cycle.md R80): fetch, decode, route. -/
def step (s : State) : Host.Outcome State Fault Refusal :=
  match s.status with
  | .running => fetch s fun f => route exec (decode opcodeMap f) s
  | .halted => .fault .notRunning
  | .aborted => .fault .notRunning

/-- `s` with the opcode-table word `w` of `nbits` bits stored at pc, pc+1 and pc+2, where step fetches; the bytes the
table gives no bits are 0. Nothing else changes: in a running state with pc at most 253, as State.reset is, the very next
step runs that instruction (log entries 9 and 16). -/
def State.withFetchWord (s : State) (nbits w : Nat) : State :=
  s.pokeFetched (fetchedOfWord nbits w)

end Sys2Proof.Machine
end

