-- ==== Sys2Proof/Machine/Boot.lean ====
section
/-! DEFINITION. Machine/Boot.lean: reset for any values of the OPEN parameters (spec/10_state.md R33), and the loader's
contract with the CORE (70_reset_and_hazards.md R182): the only way a program comes into memory. -/

namespace Sys2Proof.Machine

/-- The reset state with no image, for the OPEN parameters `p` (10_state.md R33). -/
def State.resetWith (p : OpenParams) : State where
  regs   := #v[p.regInit 0, p.regInit 1, p.regInit 2, p.regInit 3, p.regInit 4, p.regInit 5, p.regInit 6, spInit]
  pc     := 0
  fl     := p.flInit
  mem    := Memory.ofFun p.memInit
  status := .running
  cause  := .none
  info   := 0
  out    := []

/-- Writes bytes at ascending addresses from `addr` on: `mem[i] <- image[i]` (70_reset_and_hazards.md R182). -/
def State.loadFrom (s : State) (addr : Nat) : List Byte → State
  | [] => s
  | v :: image => (s.setByte addr v).loadFrom (addr + 1) image

/-- `load_image` (60_exceptions.md R175): the state before the first step. "An image of more than 256 bytes is not a
valid launch: the model refuses it, and no run starts" (70_reset_and_hazards.md R182). -/
def launchWith (p : OpenParams) (image : List Byte) : Result :=
  if 256 < image.length then .refused (.imageTooLong image.length)
  else .next ((State.resetWith p).loadFrom loadBase image)

end Sys2Proof.Machine
end

