-- ==== Sys2Proof/Machine/Ports.lean ====
section
/-! DEFINITION. Machine/Ports.lean: the block's interface (spec/60_exceptions.md R175), as far as it is not `launchWith` (the
input `load_image`), and the text the host makes of the output (R171). -/

namespace Sys2Proof.Machine

/-- The input `step`: "perform one step of 40_engine_cycle.md rule R84; ignored unless status = RUNNING" (R175). -/
def State.stepEvent (s : State) : State :=
  match step s with
  | .next t => t
  | .fault _ => s
  | .refused _ => s

/-- The outputs `out_valid` and `out_data` during the step from `s`: the emitted byte where `out_valid` is asserted, none
where it is not (R175; log entry 12). -/
def State.outPort (s : State) : Option Byte :=
  s.stepEvent.out[s.out.length]?

/-- The output `status`: 0 = RUNNING, 1 = HALTED, 2 = ABORTED (R175). -/
def State.statusPort (s : State) : BitVec 2 :=
  match s.status with
  | .running => 0
  | .halted => 1
  | .aborted => 2

/-- The output `cause`, 3 bits: the codes 0 to 5 of R161 (R175). -/
def State.causePort (s : State) : BitVec 3 :=
  BitVec.ofNat 3 s.cause.code

/-- The output `info`, 9 bits; it "holds 0..256" (R175). -/
def State.infoPort (s : State) : BitVec 9 :=
  BitVec.ofNat 9 s.info

/-- What the host shows: each emitted byte in decimal, one per line (R171). -/
def State.hostText (s : State) : String :=
  s.out.foldl (fun text v => text ++ toString v.toNat ++ "\n") ""

end Sys2Proof.Machine
end

