-- ==== Sys2Proof/Safety.lean ====
section
/-! DEFINITION. Safety.lean: the terms claims use: the end of a run, the invariant of the machine, which error a step
reports first, and what "unchanged" means. -/

namespace Sys2Proof.Machine

/-! ### Runs (spec/40_engine_cycle.md R85, R86) -/

/-- The state after at most `n` steps: a run "until status leaves RUNNING", under fuel (R85, 93_implementation_defined.md
"the model runs under fuel"). -/
def State.runFor : Nat → State → State
  | 0, s => s
  | n + 1, s => State.runFor n s.stepEvent

/-- "A run ends at the first state whose status is not RUNNING" (R86). -/
abbrev State.Ended (s : State) : Prop :=
  s.status ≠ .running

/-- "The end of the run is clean if and only if `status = HALTED` and `cause = 0`" (R86). -/
abbrev State.CleanEnd (s : State) : Prop :=
  s.status = .halted ∧ s.cause.code = 0

/-- The source's stack invariant, "SP always indexes into the stack region (addresses below its initial value, growing
downward)" (20_memory.md R47). The hardware does not check it: it is the program's obligation, and a claim may take it as a
premise (92_eei_decisions.md D17, 90_conflicts.md C8). -/
abbrev State.StackInRegion (s : State) : Prop :=
  s.stackTop ≤ spInit.toNat

/-! ### The invariant of every reachable state -/

/-- What status, cause and info say together (10_state.md R28, 60_exceptions.md R161): a running machine has recorded
nothing, HALTED comes with cause 0 or 1, ABORTED with causes 2 to 5, and info is what R161's table records with the
cause. -/
def State.StatusWf (s : State) : Prop :=
  match s.cause with
  | .none => s.status ≠ .aborted ∧ s.info = 0
  | .unknownInstruction => s.status = .halted ∧ s.info ≤ 255
  | .unsupportedOperation => s.status = .aborted ∧ s.info ≤ 255
  | .boundsFault => s.status = .aborted ∧ s.info = 256
  | .badRegister => s.status = .aborted ∧ 8 ≤ s.info ∧ s.info ≤ 255
  | .divideByZero => s.status = .aborted ∧ s.info = 0xA3

/-- The machine's invariant: pc is at most 256 (10_state.md R25), memory has its canonical form, and status, cause and info
agree. -/
def State.Inv (s : State) : Prop :=
  s.pc ≤ 256 ∧ s.mem.wf = true ∧ s.StatusWf

/-! ### What an instruction may write (10_state.md R22) -/

/-- The numbers of the registers the table of R22 says an instruction writes; R7 is the stack pointer. -/
def writtenRegs : Instr → List Nat
  | .halt | .prn _ | .jmp _ | .jeq _ | .jne _ | .cmp _ _ => []
  | .ldi a _ | .add a _ | .sub a _ | .mul a _ | .div a _ => [a.toNat]
  | .push _ | .call _ | .ret => [7]
  | .pop a => [a.toNat, 7]

/-! ### Which error a step reports (60_exceptions.md R161, R165) -/

/-- The register-index bytes an instruction uses in a state, in the order of its pseudocode. JEQ and JNE use theirs only when
taken (43_control_transfer.md R146, R148). -/
def usedRegs (i : Instr) (s : State) : List Byte :=
  match i with
  | .halt | .ret => []
  | .ldi a _ | .prn a | .push a | .pop a | .call a | .jmp a => [a]
  | .jeq a => if flagE s.fl then [a] else []
  | .jne a => if flagE s.fl then [] else [a]
  | .add a b | .sub a b | .mul a b | .div a b | .cmp a b => [a, b]

/-- Whether the instruction is a DIV whose divisor register holds 0. -/
def dividesByZero (i : Instr) (s : State) : Bool :=
  match i with
  | .div _ b => match regIndex? b with
    | some r => s.reg r = 0
    | none => false
  | .halt | .ldi _ _ | .prn _ | .push _ | .pop _ | .call _ | .ret | .jmp _ | .jeq _ | .jne _
  | .add _ _ | .sub _ _ | .mul _ _ | .cmp _ _ => false

/-- The error an instruction raises in a state, if any: BadRegister for the first used index byte of 8 or above, then
DivideByZero (R165, items 3 and 4). -/
def instrError (i : Instr) (s : State) : Option (ErrorKind × Nat) :=
  match (usedRegs i s).find? fun r => 8 ≤ r.toNat with
  | some r => some (.badRegister, r.toNat)
  | none => if dividesByZero i s then some (.divideByZero, 0xA3) else none

/-- The error a step reports, if any, with its info: the first that applies in the order of R165. -/
def State.firstError (s : State) : Option (ErrorKind × Nat) :=
  if 255 < s.pc then some (.boundsFault, s.pc)
  else if 255 < s.pc + 1 then some (.boundsFault, s.pc + 1)
  else if 255 < s.pc + 2 then some (.boundsFault, s.pc + 2)
  else match decode opcodeMap s.fetched with
    | .unsupported ir => some (.unsupportedOperation, ir.toNat)
    | .unknown ir => some (.unknownInstruction, ir.toNat)
    | .instr i => instrError i s

/-! ### What "unchanged" means -/

/-- Every byte of memory reads as before. -/
abbrev SameMem (s t : State) : Prop :=
  ∀ addr, t.mem.read addr = s.mem.read addr

/-- Every byte of memory but the one at `slot` reads as before. -/
abbrev SameMemBut (slot : Nat) (s t : State) : Prop :=
  ∀ addr, addr ≠ slot → t.mem.read addr = s.mem.read addr

/-- Every general register holds what it held. -/
abbrev SameRegs (s t : State) : Prop :=
  ∀ r, t.reg r = s.reg r

/-- Every general register but `r` holds what it held. -/
abbrev SameRegsBut (r : Fin 8) (s t : State) : Prop :=
  ∀ q, q ≠ r → t.reg q = s.reg q

/-- status, cause and info hold what they held: the run goes on as it was. -/
abbrev SameRun (s t : State) : Prop :=
  t.status = s.status ∧ t.cause = s.cause ∧ t.info = s.info

/-- The state a raise leaves: status, cause and info written, and nothing else (60_exceptions.md R162). -/
abbrev raised (s : State) (status : Status) (cause : Cause) (info : Nat) : State :=
  { s with status := status, cause := cause, info := info }

end Sys2Proof.Machine
end

