-- ==== Sys2Proof/Certificates/Slice0/Obligations.lean ====
section
/-! DEFINITION. Certificates/Slice0/Obligations.lean: the statements for the provers, in the order of OBLIGATIONS.json. A register
operand is an index BYTE; `⟨a.toNat, ha⟩` is the register it names, `ha` saying that it names one. Numeric opcodes rest on
spec/92_eei_decisions.md D1 (log entry 1). -/

open Sys2Proof Sys2Proof.Machine

/-! ### Reset and launch -/

/-- What the machine holds before the first step, for every value of the OPEN parameters (the spec's D4, D5, D6) and every image, and
which images are refused: the reset table of 10_state.md section 7 and the loader's contract of 70_reset_and_hazards.md section 1.
Derived: the empty output is a row the table itself grounds as "derived: nothing has been printed", cause and info are the spec's
D14, and the refusal `imageTooLong` is the spec's D21 in the model's own form (DEDUCED, log entry 13). -/
def Obligations.LaunchGivesResetValuesAndImage : Prop :=
  ∀ (p : OpenParams) (image : List Byte),
    (image.length ≤ 256 → ∃ t, launchWith p image = .next t ∧
      t.reg spReg = 0xF4 ∧ (∀ i : Fin 7, t.reg i.castSucc = p.regInit i) ∧ t.pc = 0 ∧ t.fl = p.flInit ∧
      (∀ (i : Nat) (h : i < image.length), t.mem.read i = image[i]) ∧
      (∀ a : Fin 256, image.length ≤ a → t.mem.read a = p.memInit a) ∧
      t.status = .running ∧ t.cause.code = 0 ∧ t.info = 0 ∧ t.out = []) ∧
    (256 < image.length → launchWith p image = .refused (.imageTooLong image.length))

/-- The model's reset is the launch of no image with every OPEN parameter 0 (DESIGN CHOICE, log entries 2, 3, 4). -/
def Obligations.ResetIsTheEmptyLaunchWithZeroParameters : Prop :=
  launchWith OpenParams.zero [] = .next State.reset

/-- The invariant holds at reset and at every launch. -/
def Obligations.EveryLaunchMeetsTheInvariant : Prop :=
  State.reset.Inv ∧ ∀ (p : OpenParams) (image : List Byte) (t : State), launchWith p image = .next t → t.Inv

/-! ### The invariant -/

/-- Every step keeps: pc at most 256 (10_state.md R25), memory canonical, status, cause and info as R28 and R161 pair them
(a bounds fault always records 256). -/
def Obligations.EveryStepKeepsTheInvariant : Prop :=
  ∀ s t : State, s.Inv → step s = .next t → t.Inv

/-- So every state of every run from every launch meets it. -/
def Obligations.EveryStateOfARunMeetsTheInvariant : Prop :=
  ∀ (p : OpenParams) (image : List Byte) (t : State) (n : Nat), launchWith p image = .next t → (t.runFor n).Inv

/-! ### Encoding -/

/-- Decoding the bytes of any instruction, with every operand byte, under every valid opcode map, gives the instruction and
leaves what follows it. -/
def Obligations.DecodingAnEncodedInstructionGivesItBack : Prop :=
  ∀ (om : OpcodeMap) (i : Instr) (rest : List Byte), om.Valid → decodeFront om (encode om i ++ rest) = .instr i rest

/-- Whatever decodes is the encoding of what it decodes to: no two byte sequences mean one instruction. -/
def Obligations.WhatDecodesIsAnEncoding : Prop :=
  ∀ (om : OpcodeMap) (bytes rest : List Byte) (i : Instr),
    decodeFront om bytes = .instr i rest → encode om i ++ rest = bytes

/-- Words written out from 30_encoding.md R61 and R60 decode to what they stand for: the ignored bytes do not matter, and
0x00 is no instruction. -/
def Obligations.WordsOfEachFormatDecodeAsTheTableSays : Prop :=
  decode opcodeMap ⟨0b10000010, 0, 8⟩ = .instr (.ldi 0 8) ∧
  decode opcodeMap ⟨0b10100010, 0, 1⟩ = .instr (.mul 0 1) ∧
  decode opcodeMap ⟨0b10100111, 3, 9⟩ = .instr (.cmp 3 9) ∧
  decode opcodeMap ⟨0b01010000, 1, 0xFF⟩ = .instr (.call 1) ∧
  decode opcodeMap ⟨0b01010110, 3, 0x45⟩ = .instr (.jne 3) ∧
  decode opcodeMap ⟨0b00010001, 0xAA, 0x55⟩ = .instr .ret ∧
  decode opcodeMap ⟨0b00000000, 0, 0⟩ = .unknown 0 ∧
  decode opcodeMap ⟨0b10100100, 0, 0⟩ = .unsupported 0xA4

/-! ### The step -/

/-- 40_engine_cycle.md R80: the initial state runs; a step is defined exactly while status is RUNNING. -/
def Obligations.AStepIsDefinedExactlyWhileRunning : Prop :=
  (∀ (p : OpenParams) (image : List Byte) (t : State), launchWith p image = .next t → t.status = .running ∧ t.pc = 0) ∧
  (∀ s : State, s.status = .running → ∃ t, step s = .next t) ∧
  (∀ s : State, s.status ≠ .running → ∀ t, step s ≠ .next t)

/-- In a terminal state the model's step is the fault `notRunning`, the `step` event is ignored and a run stays where it is
(the model's own form of R80 and R175: log entry 5). -/
def Obligations.ATerminalStateIsForever : Prop :=
  ∀ (s : State) (n : Nat), s.Ended → step s = .fault .notRunning ∧ s.stepEvent = s ∧ s.runFor n = s

/-- 40_engine_cycle.md R82: a step whose three bytes are in memory runs the decoded instruction, or raises the error of decode.
The causes and infos of these errors are the spec's decision D14 (log entry 8). -/
def Obligations.AStepRunsTheDecodedInstruction : Prop :=
  ∀ s : State, s.status = .running → s.pc + 2 ≤ 255 →
    (∀ i, decode opcodeMap s.fetched = .instr i → step s = exec i s) ∧
    (∀ ir, decode opcodeMap s.fetched = .unsupported ir →
      step s = .next (raised s .aborted .unsupportedOperation ir.toNat)) ∧
    (∀ ir, decode opcodeMap s.fetched = .unknown ir →
      step s = .next (raised s .halted .unknownInstruction ir.toNat))

/-- Where an instruction's own bytes stand at pc, the step runs it, whatever stands in the bytes its format ignores
(30_encoding.md R60, R64). -/
def Obligations.EncodedBytesInMemoryRun : Prop :=
  ∀ (s : State) (i : Instr), s.status = .running → s.pc + 2 ≤ 255 →
    (∀ (k : Nat) (h : k < (encode opcodeMap i).length), s.mem.read (s.pc + k) = (encode opcodeMap i)[k]) →
    step s = exec i s

/-- 40_engine_cycle.md R81: the three fetch addresses are checked in order, before decode, whatever the instruction; where all
three are in memory the step goes on with the bytes read there. The check, and its place before decode, are the spec's decisions D8
and D9 (log entry 8). -/
def Obligations.FetchChecksItsThreeAddressesInOrder : Prop :=
  ∀ s : State, s.status = .running →
    (255 < s.pc → step s = .next (raised s .aborted .boundsFault s.pc)) ∧
    (s.pc ≤ 255 → 255 < s.pc + 1 → step s = .next (raised s .aborted .boundsFault (s.pc + 1))) ∧
    (s.pc + 1 ≤ 255 → 255 < s.pc + 2 → step s = .next (raised s .aborted .boundsFault (s.pc + 2))) ∧
    (s.pc + 2 ≤ 255 → step s = route exec (decode opcodeMap
      ⟨s.mem.read s.pc, s.mem.read (s.pc + 1), s.mem.read (s.pc + 2)⟩) s)

/-- 60_exceptions.md R164: an unknown instruction changes nothing but status, cause and info; and a 2-byte program of an
unrecognized opcode and any byte halts after one step, for every value of the OPEN parameters. The cause and info recorded are the
spec's decision D14, the set of opcodes its D1 (log entries 8 and 1). -/
def Obligations.UnknownInstructionChangesNothingElse : Prop :=
  (∀ s : State, s.status = .running → s.pc + 2 ≤ 255 →
    (s.mem.read s.pc).getLsbD 5 = false → (∀ m, opcodeMap m ≠ s.mem.read s.pc) →
    step s = .next (raised s .halted .unknownInstruction (s.mem.read s.pc).toNat)) ∧
  (∀ (p : OpenParams) (x y : Byte), x.getLsbD 5 = false → (∀ m, opcodeMap m ≠ x) →
    ∃ s, launchWith p [x, y] = .next s ∧ step s = .next (raised s .halted .unknownInstruction x.toNat))

/-- 30_encoding.md R66: how every illegal byte fails, and how many bytes there are of each kind; 0x00 is an unknown
instruction. Which bytes are illegal rests on the spec's decisions D1 and D3 (log entries 1 and 8). -/
def Obligations.IllegalOpcodesFailByBitFive : Prop :=
  (∀ s : State, s.status = .running → s.pc + 2 ≤ 255 → (∀ m, opcodeMap m ≠ s.mem.read s.pc) →
    step s = .next (if (s.mem.read s.pc).getLsbD 5
      then raised s .aborted .unsupportedOperation (s.mem.read s.pc).toNat
      else raised s .halted .unknownInstruction (s.mem.read s.pc).toNat)) ∧
  ((List.range 256).countP fun n => classify opcodeMap (BitVec.ofNat 8 n) = .unsupported) = 123 ∧
  ((List.range 256).countP fun n => classify opcodeMap (BitVec.ofNat 8 n) = .unknown) = 118 ∧
  classify opcodeMap 0x00 = .unknown

/-! ### Errors -/

/-- 60_exceptions.md R165: a running step reports the first error that applies, in the order bounds (pc, pc+1, pc+2), decode,
register index (a, then b), divide by zero, and only that one; where none applies it reports none. The priority is the spec's decision D15
(log entry 8). -/
def Obligations.AStepReportsTheFirstErrorThatApplies : Prop :=
  ∀ s : State, s.status = .running →
    (∀ k v, s.firstError = some (k, v) → ∃ t, step s = .next t ∧ t = raised s t.status k.cause v ∧
      (t.status = .halted ↔ k = .unknownInstruction) ∧ (t.status = .aborted ↔ k ≠ .unknownInstruction)) ∧
    (s.firstError = none → ∃ t, step s = .next t ∧
      (t.status = .running ∨ t.status = .halted ∧ t.cause.code = 0))

/-- 60_exceptions.md R163: a step that ends the run with an error writes nothing but status, cause and info; pc still holds the
address of the instruction that raised. Precision is the spec's decision D16 (log entry 8). -/
def Obligations.ErrorsArePrecise : Prop :=
  ∀ s t : State, s.status = .running → step s = .next t → t.status ≠ .running → t.cause ≠ .none →
    t.pc = s.pc ∧ SameRegs s t ∧ t.fl = s.fl ∧ SameMem s t ∧ t.out = s.out ∧
    t = raised s t.status t.cause t.info

/-- Only the step that ends the run writes status, cause and info (the spec's decision D14, 10_state.md §4). -/
def Obligations.AStepThatRunsOnKeepsStatusCauseAndInfo : Prop :=
  ∀ s t : State, step s = .next t → t.status = .running → SameRun s t

/-- The end of a run is clean exactly when the step executed HALT (40_engine_cycle.md §6, D23). -/
def Obligations.OnlyHaltEndsARunCleanly : Prop :=
  ∀ s t : State, step s = .next t → (t.CleanEnd ↔ s.pc + 2 ≤ 255 ∧ decode opcodeMap s.fetched = .instr .halt)

/-! ### Whole-machine frames -/

/-- The register column of 10_state.md §1's table: an instruction changes no register but those the table names. -/
def Obligations.OnlyTheNamedRegistersChange : Prop :=
  ∀ (i : Instr) (s t : State) (r : Fin 8), exec i s = .next t → t.reg r ≠ s.reg r → r.val ∈ writtenRegs i

/-- 10_state.md R26: CMP, and only CMP, sets fl: bit 0 Equal, bit 1 Greater-than, bit 2 Less-than, the others 0; no instruction
reads a bit of fl but bit 0, and none but JEQ and JNE reads that. That CMP clears bits 7:3 is also the spec's decision D24 (log
entry 8). -/
def Obligations.FlagsAreSetByCmpAndOnlyEqualIsRead : Prop :=
  (∀ (i : Instr) (s t : State), exec i s = .next t → t.fl ≠ s.fl → ∃ a b, i = .cmp a b) ∧
  (∀ (a b : Byte) (s : State) (ha : a.toNat < 8) (hb : b.toNat < 8), ∃ t, exec (.cmp a b) s = .next t ∧
    (t.fl.getLsbD 0 = true ↔ s.reg ⟨a.toNat, ha⟩ = s.reg ⟨b.toNat, hb⟩) ∧
    (t.fl.getLsbD 1 = true ↔ (s.reg ⟨b.toNat, hb⟩).toNat < (s.reg ⟨a.toNat, ha⟩).toNat) ∧
    (t.fl.getLsbD 2 = true ↔ (s.reg ⟨a.toNat, ha⟩).toNat < (s.reg ⟨b.toNat, hb⟩).toNat) ∧
    ∀ k, 3 ≤ k → t.fl.getLsbD k = false) ∧
  (∀ (i : Instr) (s t : State) (v : Byte),
    v.getLsbD 0 = s.fl.getLsbD 0 ∨ (∀ a, i ≠ .jeq a ∧ i ≠ .jne a) → exec i s = .next t →
    ∃ w, exec i (s.setFl v) = .next (t.setFl w))

/-- PUSH and CALL are the only instructions that write memory, one byte at the new SP (20_memory.md §1, §2). -/
def Obligations.OnlyPushAndCallWriteMemory : Prop :=
  ∀ (i : Instr) (s t : State) (addr : Nat), exec i s = .next t → t.mem.read addr ≠ s.mem.read addr →
    addr = s.decSp.stackTop ∧ ∃ a, i = .push a ∨ i = .call a

/-- The only addresses a step reads are the three of its fetch and the stack top: a memory that agrees there gives the same
registers, pc, flags, status, cause, info and output (20_memory.md §2, §1). -/
def Obligations.AStepReadsOnlyItsFetchAndTheStackTop : Prop :=
  ∀ (s t : State) (m : Memory),
    m.read s.pc = s.mem.read s.pc → m.read (s.pc + 1) = s.mem.read (s.pc + 1) →
    m.read (s.pc + 2) = s.mem.read (s.pc + 2) → m.read s.stackTop = s.mem.read s.stackTop →
    step s = .next t → ∃ u, step { s with mem := m } = .next u ∧ { u with mem := t.mem } = t

/-- The engine only appends to the output, at most one byte a step and only by PRN, and never reads it (10_state.md §5). -/
def Obligations.OutputIsOnlyAppendedAndNeverRead : Prop :=
  (∀ (i : Instr) (s t : State), exec i s = .next t →
    t.out = s.out ∨ ∃ a v, i = .prn a ∧ t.out = s.out ++ [v]) ∧
  (∀ (i : Instr) (s t : State) (earlier : List Byte), exec i s = .next t →
    exec i { s with out := earlier } = .next { t with out := earlier ++ t.out.drop s.out.length })

/-- The output port is valid in exactly the steps that execute PRN without error, with the register's value, and the other
ports carry status, cause and info exactly in every state that meets the invariant (60_exceptions.md §7, the spec's D19). -/
def Obligations.ThePortsCarryWhatTheStepDid : Prop :=
  (∀ (s : State) (v : Byte), s.outPort = some v ↔
    s.status = .running ∧ s.pc + 2 ≤ 255 ∧
      ∃ (a : Byte) (ha : a.toNat < 8), decode opcodeMap s.fetched = .instr (.prn a) ∧ v = s.reg ⟨a.toNat, ha⟩) ∧
  (∀ s : State, s.Inv → s.infoPort.toNat = s.info ∧ s.causePort.toNat = s.cause.code ∧
    (s.statusPort = 0 ↔ s.status = .running) ∧ (s.statusPort = 1 ↔ s.status = .halted) ∧
    (s.statusPort = 2 ↔ s.status = .aborted))

/-! ### HALT, LDI, PRN, PUSH, POP -/

/-- 42_data_movement.md R120. -/
def Obligations.HaltStopsAndKeepsEverythingElse : Prop :=
  ∀ s : State, encode opcodeMap .halt = [0x01] ∧
    ∃ t, exec .halt s = .next t ∧ t.status = .halted ∧ t.cause.code = 0 ∧ t.pc = s.pc ∧
      SameRegs s t ∧ t.fl = s.fl ∧ SameMem s t ∧ t.info = s.info ∧ t.out = s.out ∧
      ∀ u, step t ≠ .next u

/-- 42_data_movement.md R122, with its property: LDI r v followed by PRN r outputs v. BadRegister is the spec's D10. -/
def Obligations.LdiLoadsTheImmediate : Prop :=
  ∀ (a imm : Byte) (s : State), encode opcodeMap (.ldi a imm) = [0x82, a, imm] ∧
    (8 ≤ a.toNat → exec (.ldi a imm) s = .next (raised s .aborted .badRegister a.toNat)) ∧
    (∀ ha : a.toNat < 8, ∃ t, exec (.ldi a imm) s = .next t ∧
      t.reg ⟨a.toNat, ha⟩ = imm ∧ SameRegsBut ⟨a.toNat, ha⟩ s t ∧ t.pc = s.pc + 3 ∧
      t.fl = s.fl ∧ SameMem s t ∧ SameRun s t ∧ t.out = s.out ∧
      ∃ u, exec (.prn a) t = .next u ∧ u.out = s.out ++ [imm])

/-- 42_data_movement.md R123. BadRegister is the spec's D10. -/
def Obligations.PrnEmitsTheRegister : Prop :=
  ∀ (a : Byte) (s : State), encode opcodeMap (.prn a) = [0x47, a] ∧
    (8 ≤ a.toNat → exec (.prn a) s = .next (raised s .aborted .badRegister a.toNat)) ∧
    (∀ ha : a.toNat < 8, ∃ t, exec (.prn a) s = .next t ∧
      t.out = s.out ++ [s.reg ⟨a.toNat, ha⟩] ∧ t.pc = s.pc + 2 ∧
      SameRegs s t ∧ t.fl = s.fl ∧ SameMem s t ∧ SameRun s t)

/-- PUSH (42_data_movement.md §PUSH): SP goes down by one modulo 256, and the byte at the new SP becomes register a as it stands
THEN, so PUSH R7 stores the decremented SP (the spec marks that clause as derived). BadRegister is the spec's D10. -/
def Obligations.PushDecrementsThenStores : Prop :=
  ∀ (a : Byte) (s : State), encode opcodeMap (.push a) = [0x45, a] ∧
    (8 ≤ a.toNat → exec (.push a) s = .next (raised s .aborted .badRegister a.toNat)) ∧
    (∀ ha : a.toNat < 8, s.mem.wf = true → ∃ t, exec (.push a) s = .next t ∧
      ((t.reg spReg).toNat : Int) = ((s.reg spReg).toNat - 1) % 256 ∧ SameRegsBut spReg s t ∧
      t.mem.read s.decSp.stackTop = (if a = 7 then t.reg spReg else s.reg ⟨a.toNat, ha⟩) ∧
      s.decSp.stackTop = (t.reg spReg).toNat ∧ SameMemBut s.decSp.stackTop s t ∧
      t.pc = s.pc + 2 ∧ t.fl = s.fl ∧ SameRun s t ∧ t.out = s.out)

/-- POP (42_data_movement.md §POP): register a takes the byte at SP, then SP goes up by one modulo 256, so POP R7 ends at the
popped byte plus 1 (the spec marks that clause as derived). BadRegister is the spec's D10. -/
def Obligations.PopLoadsThenIncrements : Prop :=
  ∀ (a : Byte) (s : State), encode opcodeMap (.pop a) = [0x46, a] ∧
    (8 ≤ a.toNat → exec (.pop a) s = .next (raised s .aborted .badRegister a.toNat)) ∧
    (∀ ha : a.toNat < 8, ∃ t, exec (.pop a) s = .next t ∧
      (a ≠ 7 → t.reg ⟨a.toNat, ha⟩ = s.mem.read (s.reg spReg).toNat ∧ (t.reg spReg).toNat = ((s.reg spReg).toNat + 1) % 256) ∧
      (a = 7 → (t.reg spReg).toNat = ((s.mem.read (s.reg spReg).toNat).toNat + 1) % 256) ∧
      (∀ q : Fin 8, q ≠ ⟨a.toNat, ha⟩ → q ≠ spReg → t.reg q = s.reg q) ∧
      t.pc = s.pc + 2 ∧ t.fl = s.fl ∧ SameMem s t ∧ SameRun s t ∧ t.out = s.out)

/-- The PUSH/POP law (42_data_movement.md §PUSH/POP law; the spec marks it as derived): for every register, R7 too. -/
def Obligations.PushThenPopRestoresTheRegisters : Prop :=
  ∀ (a : Byte) (s : State) (ha : a.toNat < 8), s.mem.wf = true →
    ∃ t u, exec (.push a) s = .next t ∧ exec (.pop a) t = .next u ∧ SameRegs s u ∧
      u.mem.read s.decSp.stackTop = (if a = 7 then s.reg spReg - 1 else s.reg ⟨a.toNat, ha⟩) ∧
      SameMemBut s.decSp.stackTop s u ∧ u.pc = s.pc + 4

/-! ### CALL, RET, JMP, JEQ, JNE -/

/-- CALL (43_control_transfer.md §CALL): pushes pc + 2, then jumps to register a as it stands after the push, so CALL R7 goes to
the decremented SP (the spec marks that clause as derived). pc + 2 ≤ 255 holds wherever a step executes. BadRegister is D10. -/
def Obligations.CallPushesTheReturnAddressAndJumps : Prop :=
  ∀ (a : Byte) (s : State), encode opcodeMap (.call a) = [0x50, a] ∧
    (8 ≤ a.toNat → exec (.call a) s = .next (raised s .aborted .badRegister a.toNat)) ∧
    (∀ ha : a.toNat < 8, s.pc + 2 ≤ 255 → s.mem.wf = true → ∃ t, exec (.call a) s = .next t ∧
      ((t.reg spReg).toNat : Int) = ((s.reg spReg).toNat - 1) % 256 ∧ SameRegsBut spReg s t ∧
      (t.mem.read s.decSp.stackTop).toNat = s.pc + 2 ∧ s.decSp.stackTop = (t.reg spReg).toNat ∧
      SameMemBut s.decSp.stackTop s t ∧
      t.pc = (if a = 7 then t.reg spReg else s.reg ⟨a.toNat, ha⟩).toNat ∧
      t.fl = s.fl ∧ SameRun s t ∧ t.out = s.out)

/-- 43_control_transfer.md R142. -/
def Obligations.RetPopsTheProgramCounter : Prop :=
  ∀ s : State, encode opcodeMap .ret = [0x11] ∧ ∃ t, exec .ret s = .next t ∧
    t.pc = (s.mem.read (s.reg spReg).toNat).toNat ∧ (t.reg spReg).toNat = ((s.reg spReg).toNat + 1) % 256 ∧
    SameRegsBut spReg s t ∧ t.fl = s.fl ∧ SameMem s t ∧ SameRun s t ∧ t.out = s.out

/-- The CALL/RET law (43_control_transfer.md §CALL/RET law; the spec marks it as derived), over steps: `s` executes CALL, `s2` is
any later state that leaves SP and the pushed byte as CALL left them and executes RET. -/
def Obligations.RetReturnsBehindTheMatchingCall : Prop :=
  ∀ (a : Byte) (s s1 s2 : State), s.mem.wf = true → s.status = .running → s.pc + 2 ≤ 255 →
    decode opcodeMap s.fetched = .instr (.call a) → a.toNat < 8 → step s = .next s1 →
    s2.status = .running → s2.pc + 2 ≤ 255 → decode opcodeMap s2.fetched = .instr .ret →
    s2.stackTop = s1.stackTop → s2.mem.read s1.stackTop = s1.mem.read s1.stackTop →
    ∃ s3, step s2 = .next s3 ∧ s3.pc = s.pc + 2 ∧ s3.stackTop = s.stackTop

/-- 43_control_transfer.md R144. BadRegister is the spec's D10. -/
def Obligations.JmpGoesToTheRegistersAddress : Prop :=
  ∀ (a : Byte) (s : State), encode opcodeMap (.jmp a) = [0x54, a] ∧
    (8 ≤ a.toNat → exec (.jmp a) s = .next (raised s .aborted .badRegister a.toNat)) ∧
    (∀ ha : a.toNat < 8, ∃ t, exec (.jmp a) s = .next t ∧ t.pc = (s.reg ⟨a.toNat, ha⟩).toNat ∧
      SameRegs s t ∧ t.fl = s.fl ∧ SameMem s t ∧ SameRun s t ∧ t.out = s.out)

/-- 43_control_transfer.md R146: the index is checked only on the taken path (the spec's D10). -/
def Obligations.JeqBranchesIffEqualIsSet : Prop :=
  ∀ (a : Byte) (s : State), encode opcodeMap (.jeq a) = [0x55, a] ∧
    (s.fl.getLsbD 0 = true → 8 ≤ a.toNat →
      exec (.jeq a) s = .next (raised s .aborted .badRegister a.toNat)) ∧
    (∀ ha : a.toNat < 8, s.fl.getLsbD 0 = true → ∃ t, exec (.jeq a) s = .next t ∧
      t.pc = (s.reg ⟨a.toNat, ha⟩).toNat ∧
      SameRegs s t ∧ t.fl = s.fl ∧ SameMem s t ∧ SameRun s t ∧ t.out = s.out) ∧
    (s.fl.getLsbD 0 = false → ∃ t, exec (.jeq a) s = .next t ∧ t.pc = s.pc + 2 ∧
      SameRegs s t ∧ t.fl = s.fl ∧ SameMem s t ∧ SameRun s t ∧ t.out = s.out)

/-- 43_control_transfer.md R148: the index is checked only on the taken path (the spec's D10). -/
def Obligations.JneBranchesIffEqualIsClear : Prop :=
  ∀ (a : Byte) (s : State), encode opcodeMap (.jne a) = [0x56, a] ∧
    (s.fl.getLsbD 0 = false → 8 ≤ a.toNat →
      exec (.jne a) s = .next (raised s .aborted .badRegister a.toNat)) ∧
    (∀ ha : a.toNat < 8, s.fl.getLsbD 0 = false → ∃ t, exec (.jne a) s = .next t ∧
      t.pc = (s.reg ⟨a.toNat, ha⟩).toNat ∧
      SameRegs s t ∧ t.fl = s.fl ∧ SameMem s t ∧ SameRun s t ∧ t.out = s.out) ∧
    (s.fl.getLsbD 0 = true → ∃ t, exec (.jne a) s = .next t ∧ t.pc = s.pc + 2 ∧
      SameRegs s t ∧ t.fl = s.fl ∧ SameMem s t ∧ SameRun s t ∧ t.out = s.out)

/-- The operand latch (70_reset_and_hazards.md §3; the spec marks it as derived): where PUSH or CALL stores over its own operand
bytes, it still uses the bytes it fetched, and a later fetch sees the new byte. -/
def Obligations.AStoreOverItsOwnOperandsDoesNotChangeThem : Prop :=
  ∀ (a : Byte) (s : State) (ha : a.toNat < 8), s.Inv → s.status = .running → s.pc + 2 ≤ 255 →
    s.decSp.stackTop = s.pc + 1 ∨ s.decSp.stackTop = s.pc + 2 →
    (decode opcodeMap s.fetched = .instr (.push a) → ∃ t, step s = .next t ∧ t.pc = s.pc + 2 ∧
      t.mem.read s.decSp.stackTop = s.decSp.reg ⟨a.toNat, ha⟩) ∧
    (decode opcodeMap s.fetched = .instr (.call a) → ∃ t, step s = .next t ∧
      t.pc = (s.decSp.reg ⟨a.toNat, ha⟩).toNat ∧ (t.mem.read s.decSp.stackTop).toNat = s.pc + 2)

/-! ### ADD, SUB, MUL, DIV, CMP -/

/-- 41_alu.md R101: every ALU instruction checks a first and then b, before anything else; with both in range and no other error
it advances pc by 3, and where a = b the result is f(x[a], x[a]). -/
def Obligations.EveryAluInstructionChecksAThenB : Prop :=
  ∀ (a b : Byte) (s : State) (i : Instr),
    i = .add a b ∨ i = .sub a b ∨ i = .mul a b ∨ i = .div a b ∨ i = .cmp a b →
    (8 ≤ a.toNat → exec i s = .next (raised s .aborted .badRegister a.toNat)) ∧
    (a.toNat < 8 → 8 ≤ b.toNat → exec i s = .next (raised s .aborted .badRegister b.toNat)) ∧
    (∀ (ha : a.toNat < 8) (hb : b.toNat < 8), s.reg ⟨b.toNat, hb⟩ ≠ 0 ∨ i ≠ .div a b →
      ∃ (t : State) (f : Byte → Byte → Byte),
        (f = aluAdd ∧ i = .add a b ∨ f = aluSub ∧ i = .sub a b ∨ f = aluMul ∧ i = .mul a b ∨
          f = aluDiv ∧ i = .div a b ∨ f = compareFlags ∧ i = .cmp a b) ∧
        exec i s = .next t ∧ t.pc = s.pc + 3 ∧
        (if i = .cmp a b then t.fl else t.reg ⟨a.toNat, ha⟩) =
          f (s.reg ⟨a.toNat, ha⟩) (s.reg ⟨b.toNat, hb⟩))

/-- 41_alu.md R102. The wrap is the spec's D13, BadRegister its D10. -/
def Obligations.AddWritesTheSumModulo256 : Prop :=
  ∀ (a b : Byte) (s : State), encode opcodeMap (.add a b) = [0xA0, a, b] ∧
    (8 ≤ a.toNat → exec (.add a b) s = .next (raised s .aborted .badRegister a.toNat)) ∧
    (a.toNat < 8 → 8 ≤ b.toNat → exec (.add a b) s = .next (raised s .aborted .badRegister b.toNat)) ∧
    (∀ (ha : a.toNat < 8) (hb : b.toNat < 8), ∃ t, exec (.add a b) s = .next t ∧
      (t.reg ⟨a.toNat, ha⟩).toNat = ((s.reg ⟨a.toNat, ha⟩).toNat + (s.reg ⟨b.toNat, hb⟩).toNat) % 256 ∧
      SameRegsBut ⟨a.toNat, ha⟩ s t ∧ t.pc = s.pc + 3 ∧ t.fl = s.fl ∧ SameMem s t ∧ SameRun s t ∧ t.out = s.out)

/-- 41_alu.md R103. The wrap is the spec's D13, BadRegister its D10. -/
def Obligations.SubWritesTheDifferenceModulo256 : Prop :=
  ∀ (a b : Byte) (s : State), encode opcodeMap (.sub a b) = [0xA1, a, b] ∧
    (8 ≤ a.toNat → exec (.sub a b) s = .next (raised s .aborted .badRegister a.toNat)) ∧
    (a.toNat < 8 → 8 ≤ b.toNat → exec (.sub a b) s = .next (raised s .aborted .badRegister b.toNat)) ∧
    (∀ (ha : a.toNat < 8) (hb : b.toNat < 8), ∃ t, exec (.sub a b) s = .next t ∧
      ((t.reg ⟨a.toNat, ha⟩).toNat : Int) =
        ((s.reg ⟨a.toNat, ha⟩).toNat - (s.reg ⟨b.toNat, hb⟩).toNat) % 256 ∧
      SameRegsBut ⟨a.toNat, ha⟩ s t ∧ t.pc = s.pc + 3 ∧ t.fl = s.fl ∧ SameMem s t ∧ SameRun s t ∧ t.out = s.out)

/-- 41_alu.md R104. The wrap is the spec's D13, BadRegister its D10. -/
def Obligations.MulWritesTheProductModulo256 : Prop :=
  ∀ (a b : Byte) (s : State), encode opcodeMap (.mul a b) = [0xA2, a, b] ∧
    (8 ≤ a.toNat → exec (.mul a b) s = .next (raised s .aborted .badRegister a.toNat)) ∧
    (a.toNat < 8 → 8 ≤ b.toNat → exec (.mul a b) s = .next (raised s .aborted .badRegister b.toNat)) ∧
    (∀ (ha : a.toNat < 8) (hb : b.toNat < 8), ∃ t, exec (.mul a b) s = .next t ∧
      (t.reg ⟨a.toNat, ha⟩).toNat = ((s.reg ⟨a.toNat, ha⟩).toNat * (s.reg ⟨b.toNat, hb⟩).toNat) % 256 ∧
      SameRegsBut ⟨a.toNat, ha⟩ s t ∧ t.pc = s.pc + 3 ∧ t.fl = s.fl ∧ SameMem s t ∧ SameRun s t ∧ t.out = s.out)

/-- 41_alu.md R105: unsigned integer division (the spec's D12); a zero divisor raises DivideByZero after the index checks, and
x[a] keeps its value (D11). -/
def Obligations.DivWritesTheFloorOrRaisesDivideByZero : Prop :=
  ∀ (a b : Byte) (s : State), encode opcodeMap (.div a b) = [0xA3, a, b] ∧
    (8 ≤ a.toNat → exec (.div a b) s = .next (raised s .aborted .badRegister a.toNat)) ∧
    (a.toNat < 8 → 8 ≤ b.toNat → exec (.div a b) s = .next (raised s .aborted .badRegister b.toNat)) ∧
    (∀ (_ : a.toNat < 8) (hb : b.toNat < 8), s.reg ⟨b.toNat, hb⟩ = 0 →
      exec (.div a b) s = .next (raised s .aborted .divideByZero 0xA3)) ∧
    (∀ (ha : a.toNat < 8) (hb : b.toNat < 8), s.reg ⟨b.toNat, hb⟩ ≠ 0 → ∃ t, exec (.div a b) s = .next t ∧
      (t.reg ⟨a.toNat, ha⟩).toNat = (s.reg ⟨a.toNat, ha⟩).toNat / (s.reg ⟨b.toNat, hb⟩).toNat ∧
      SameRegsBut ⟨a.toNat, ha⟩ s t ∧ t.pc = s.pc + 3 ∧ t.fl = s.fl ∧ SameMem s t ∧ SameRun s t ∧ t.out = s.out)

/-- 41_alu.md R108: the comparison is unsigned and writes all 8 bits of fl (the spec's D24). -/
def Obligations.CmpWritesAllOfTheFlags : Prop :=
  ∀ (a b : Byte) (s : State), encode opcodeMap (.cmp a b) = [0xA7, a, b] ∧
    (8 ≤ a.toNat → exec (.cmp a b) s = .next (raised s .aborted .badRegister a.toNat)) ∧
    (a.toNat < 8 → 8 ≤ b.toNat → exec (.cmp a b) s = .next (raised s .aborted .badRegister b.toNat)) ∧
    (∀ (ha : a.toNat < 8) (hb : b.toNat < 8), ∃ t, exec (.cmp a b) s = .next t ∧
      ((s.reg ⟨a.toNat, ha⟩).toNat = (s.reg ⟨b.toNat, hb⟩).toNat → t.fl = 0b00000001) ∧
      ((s.reg ⟨b.toNat, hb⟩).toNat < (s.reg ⟨a.toNat, ha⟩).toNat → t.fl = 0b00000010) ∧
      ((s.reg ⟨a.toNat, ha⟩).toNat < (s.reg ⟨b.toNat, hb⟩).toNat → t.fl = 0b00000100) ∧
      SameRegs s t ∧ t.pc = s.pc + 3 ∧ SameMem s t ∧ SameRun s t ∧ t.out = s.out)
end

