-- ==== Sys2Proof/Laws/Memory.lean ====
section
/-! SUPPORT. Laws/Memory.lean: reading and writing memory, and the canonical form that every operation keeps. -/

namespace Sys2Proof.Machine

@[simp] theorem Memory.read_nil (a : Nat) : Memory.read [] a = Memory.unlisted := rfl

theorem Memory.read_cons (b a : Nat) (w : Byte) (m : Memory) :
    Memory.read ((b, w) :: m) a = if a = b then w else Memory.read m a := rfl

/-! ### The canonical form -/

theorem Memory.wfFrom_nil (lo : Nat) : Memory.wfFrom lo [] = true := rfl

theorem Memory.wfFrom_cons {lo a : Nat} {v : Byte} {m : Memory} :
    Memory.wfFrom lo ((a, v) :: m) = true ↔
      lo ≤ a ∧ a < 256 ∧ v ≠ Memory.unlisted ∧ Memory.wfFrom (a + 1) m = true := by
  simp [Memory.wfFrom, and_assoc]

/-- A bound that holds of a list holds of it for every smaller bound. -/
theorem Memory.wfFrom_mono {lo hi : Nat} (h : lo ≤ hi) {m : Memory} (hm : Memory.wfFrom hi m = true) :
    Memory.wfFrom lo m = true := by
  cases m with
  | nil => rfl
  | cons c m =>
    obtain ⟨a, v⟩ := c
    rw [Memory.wfFrom_cons] at hm ⊢
    exact ⟨by omega, hm.2⟩

/-- An address below every listed one reads as unlisted. -/
theorem Memory.read_below {lo a : Nat} {m : Memory} (hm : Memory.wfFrom lo m = true) (h : a < lo) :
    Memory.read m a = Memory.unlisted := by
  induction m generalizing lo with
  | nil => rfl
  | cons c m ih =>
    obtain ⟨b, w⟩ := c
    rw [Memory.wfFrom_cons] at hm
    rw [Memory.read_cons, if_neg (by omega)]
    exact ih hm.2.2.2 (by omega)

theorem Memory.wfFrom_consCell {lo a : Nat} {v : Byte} {m : Memory} (hlo : lo ≤ a) (ha : a < 256)
    (hm : Memory.wfFrom (a + 1) m = true) : Memory.wfFrom lo (Memory.cons a v m) = true := by
  unfold Memory.cons
  split
  · exact Memory.wfFrom_mono (by omega) hm
  · exact Memory.wfFrom_cons.2 ⟨hlo, ha, by assumption, hm⟩

theorem Memory.read_consCell {a b : Nat} {v : Byte} {m : Memory} (hm : Memory.wfFrom (a + 1) m = true) :
    Memory.read (Memory.cons a v m) b = if b = a then v else Memory.read m b := by
  unfold Memory.cons
  split
  · split
    · subst_vars
      exact Memory.read_below hm (by omega)
    · rfl
  · rfl

/-- A write keeps the canonical form. -/
theorem Memory.wfFrom_write {lo a : Nat} {v : Byte} {m : Memory} (hlo : lo ≤ a) (ha : a < 256)
    (hm : Memory.wfFrom lo m = true) : Memory.wfFrom lo (m.write a v) = true := by
  induction m generalizing lo with
  | nil => exact Memory.wfFrom_consCell hlo ha rfl
  | cons c m ih =>
    obtain ⟨b, w⟩ := c
    have h := Memory.wfFrom_cons.1 hm
    unfold Memory.write
    split
    · exact Memory.wfFrom_consCell hlo ha (Memory.wfFrom_cons.2 ⟨by omega, h.2⟩)
    · split
      · subst_vars
        exact Memory.wfFrom_consCell hlo ha h.2.2.2
      · exact Memory.wfFrom_cons.2 ⟨h.1, h.2.1, h.2.2.1, ih (by omega) h.2.2.2⟩

/-- A write keeps the canonical form. -/
theorem Memory.wf_write {a : Nat} {v : Byte} {m : Memory} (ha : a < 256) (hm : m.wf = true) :
    (m.write a v).wf = true :=
  Memory.wfFrom_write (Nat.zero_le _) ha hm

/-! ### Read after write (20_memory.md R49) -/

/-- Read after write on a canonical list. -/
theorem Memory.read_writeFrom {lo a b : Nat} {v : Byte} {m : Memory} (hm : Memory.wfFrom lo m = true) :
    (m.write a v).read b = if b = a then v else m.read b := by
  induction m generalizing lo with
  | nil => exact Memory.read_consCell rfl
  | cons c m ih =>
    obtain ⟨k, w⟩ := c
    have h := Memory.wfFrom_cons.1 hm
    unfold Memory.write
    split
    · exact Memory.read_consCell (Memory.wfFrom_cons.2 ⟨by omega, h.2⟩)
    · split
      · subst_vars
        rw [Memory.read_consCell h.2.2.2, Memory.read_cons]
        split <;> rfl
      · rw [Memory.read_cons, Memory.read_cons, ih h.2.2.2]
        by_cases hb : b = k
        · rw [if_pos hb, if_pos hb, if_neg (by omega)]
        · rw [if_neg hb, if_neg hb]

/-- A write leaves every other address alone, in any list, canonical or not. -/
theorem Memory.read_write_other {a b : Nat} {v : Byte} (m : Memory) (h : b ≠ a) :
    (m.write a v).read b = m.read b := by
  have hcons : ∀ m' : Memory, (Memory.cons a v m').read b = m'.read b := by
    intro m'
    unfold Memory.cons
    split
    · rfl
    · rw [Memory.read_cons, if_neg h]
  induction m with
  | nil => exact hcons []
  | cons c m ih =>
    obtain ⟨k, w⟩ := c
    unfold Memory.write
    split
    · exact hcons _
    · split
      · subst_vars
        rw [hcons, Memory.read_cons, if_neg h]
      · rw [Memory.read_cons, Memory.read_cons, ih]

/-- A read after a write to the same address gives the value written. -/
theorem Memory.read_write_same {a : Nat} {v : Byte} {m : Memory} (hm : m.wf = true) :
    (m.write a v).read a = v := by
  rw [Memory.read_writeFrom hm, if_pos rfl]

/-! ### Equal contents are equal lists -/

theorem Memory.extFrom {lo : Nat} {m m' : Memory} (hm : Memory.wfFrom lo m = true) (hm' : Memory.wfFrom lo m' = true)
    (h : ∀ a, m.read a = m'.read a) : m = m' := by
  induction m generalizing lo m' with
  | nil =>
    cases m' with
    | nil => rfl
    | cons c' m' =>
      obtain ⟨b, w⟩ := c'
      have h' := Memory.wfFrom_cons.1 hm'
      have := h b
      rw [Memory.read_cons, if_pos rfl] at this
      exact absurd this.symm h'.2.2.1
  | cons c m ih =>
    obtain ⟨a, v⟩ := c
    have hc := Memory.wfFrom_cons.1 hm
    cases m' with
    | nil =>
      have := h a
      rw [Memory.read_cons, if_pos rfl] at this
      exact absurd this hc.2.2.1
    | cons c' m' =>
      obtain ⟨b, w⟩ := c'
      have hc' := Memory.wfFrom_cons.1 hm'
      have ha := h a
      have hb := h b
      rw [Memory.read_cons, if_pos rfl, Memory.read_cons] at ha
      rw [Memory.read_cons, Memory.read_cons, if_pos rfl] at hb
      have hab : a = b := by
        rcases Nat.lt_trichotomy a b with hlt | heq | hgt
        · rw [if_neg (by omega), Memory.read_below hc'.2.2.2 (by omega)] at ha
          exact absurd ha hc.2.2.1
        · exact heq
        · rw [if_neg (by omega), Memory.read_below hc.2.2.2 (by omega)] at hb
          exact absurd hb.symm hc'.2.2.1
      subst hab
      rw [if_pos rfl] at ha
      subst ha
      congr 1
      apply ih hc.2.2.2 hc'.2.2.2
      intro x
      by_cases hx : x = a
      · subst hx
        rw [Memory.read_below hc.2.2.2 (by omega), Memory.read_below hc'.2.2.2 (by omega)]
      · have := h x
        rwa [Memory.read_cons, Memory.read_cons, if_neg hx, if_neg hx] at this

/-- Canonical memories that read the same everywhere are the same data. -/
theorem Memory.ext_of_wf {m m' : Memory} (hm : m.wf = true) (hm' : m'.wf = true) (h : ∀ a, m.read a = m'.read a) :
    m = m' :=
  Memory.extFrom hm hm' h

/-! ### Memory from a total map (20_memory.md R40) -/

theorem Memory.wfFrom_ofFunFrom (f : Nat → Byte) (a n : Nat) (h : a + n ≤ 256) :
    Memory.wfFrom a (Memory.ofFunFrom f a n) = true := by
  induction n generalizing a with
  | zero => rfl
  | succ n ih => exact Memory.wfFrom_consCell (Nat.le_refl a) (by omega) (ih (a + 1) (by omega))

theorem Memory.read_ofFunFrom (f : Nat → Byte) (a n b : Nat) (h : a + n ≤ 256) :
    (Memory.ofFunFrom f a n).read b = if a ≤ b ∧ b < a + n then f b else Memory.unlisted := by
  induction n generalizing a with
  | zero => rw [if_neg (by omega)]; rfl
  | succ n ih =>
    rw [Memory.ofFunFrom, Memory.read_consCell (Memory.wfFrom_ofFunFrom f (a + 1) n (by omega)), ih (a + 1) (by omega)]
    by_cases hb : b = a
    · subst hb
      rw [if_pos rfl, if_pos (by omega)]
    · rw [if_neg hb]
      congr 1
      exact propext ⟨fun h => by omega, fun h => by omega⟩

theorem Memory.wf_ofFun (f : Fin 256 → Byte) : (Memory.ofFun f).wf = true :=
  Memory.wfFrom_ofFunFrom _ 0 256 (by omega)

/-- The memory of a total map reads as the map does. -/
theorem Memory.read_ofFun (f : Fin 256 → Byte) (a : Fin 256) : (Memory.ofFun f).read a = f a := by
  rw [Memory.ofFun, Memory.read_ofFunFrom _ 0 256 _ (by omega), if_pos (by omega), dif_pos a.isLt]

theorem Memory.wf_nil : Memory.wf [] = true := rfl

end Sys2Proof.Machine
end

