-- ==== Sys2Proof/Laws/State.lean ====
section
/-! SUPPORT. Laws/State.lean: one lemma per field per update of State, so that no later proof unfolds a record update. -/

namespace Sys2Proof.Machine

/-! ### setReg -/

@[simp] theorem State.reg_setReg (s : State) (i j : Fin 8) (v : Byte) :
    (s.setReg i v).reg j = if j = i then v else s.reg j := by
  by_cases h : j = i
  · subst h; simp [State.reg, State.setReg]
  · have h' : (i : Nat) ≠ j := fun e => h (Fin.ext e.symm)
    simp [State.reg, State.setReg, h, h']
@[simp] theorem State.pc_setReg (s : State) (i : Fin 8) (v : Byte) : (s.setReg i v).pc = s.pc := rfl
@[simp] theorem State.fl_setReg (s : State) (i : Fin 8) (v : Byte) : (s.setReg i v).fl = s.fl := rfl
@[simp] theorem State.mem_setReg (s : State) (i : Fin 8) (v : Byte) : (s.setReg i v).mem = s.mem := rfl
@[simp] theorem State.status_setReg (s : State) (i : Fin 8) (v : Byte) : (s.setReg i v).status = s.status := rfl
@[simp] theorem State.cause_setReg (s : State) (i : Fin 8) (v : Byte) : (s.setReg i v).cause = s.cause := rfl
@[simp] theorem State.info_setReg (s : State) (i : Fin 8) (v : Byte) : (s.setReg i v).info = s.info := rfl
@[simp] theorem State.out_setReg (s : State) (i : Fin 8) (v : Byte) : (s.setReg i v).out = s.out := rfl

/-! ### setPc -/

@[simp] theorem State.reg_setPc (s : State) (n : Nat) (j : Fin 8) : (s.setPc n).reg j = s.reg j := rfl
@[simp] theorem State.pc_setPc (s : State) (n : Nat) : (s.setPc n).pc = n := rfl
@[simp] theorem State.fl_setPc (s : State) (n : Nat) : (s.setPc n).fl = s.fl := rfl
@[simp] theorem State.mem_setPc (s : State) (n : Nat) : (s.setPc n).mem = s.mem := rfl
@[simp] theorem State.status_setPc (s : State) (n : Nat) : (s.setPc n).status = s.status := rfl
@[simp] theorem State.cause_setPc (s : State) (n : Nat) : (s.setPc n).cause = s.cause := rfl
@[simp] theorem State.info_setPc (s : State) (n : Nat) : (s.setPc n).info = s.info := rfl
@[simp] theorem State.out_setPc (s : State) (n : Nat) : (s.setPc n).out = s.out := rfl

/-! ### advance -/

@[simp] theorem State.reg_advance (s : State) (n : Nat) (j : Fin 8) : (s.advance n).reg j = s.reg j := rfl
@[simp] theorem State.pc_advance (s : State) (n : Nat) : (s.advance n).pc = s.pc + n := rfl
@[simp] theorem State.fl_advance (s : State) (n : Nat) : (s.advance n).fl = s.fl := rfl
@[simp] theorem State.mem_advance (s : State) (n : Nat) : (s.advance n).mem = s.mem := rfl
@[simp] theorem State.status_advance (s : State) (n : Nat) : (s.advance n).status = s.status := rfl
@[simp] theorem State.cause_advance (s : State) (n : Nat) : (s.advance n).cause = s.cause := rfl
@[simp] theorem State.info_advance (s : State) (n : Nat) : (s.advance n).info = s.info := rfl
@[simp] theorem State.out_advance (s : State) (n : Nat) : (s.advance n).out = s.out := rfl

/-! ### setFl -/

@[simp] theorem State.reg_setFl (s : State) (v : Byte) (j : Fin 8) : (s.setFl v).reg j = s.reg j := rfl
@[simp] theorem State.pc_setFl (s : State) (v : Byte) : (s.setFl v).pc = s.pc := rfl
@[simp] theorem State.fl_setFl (s : State) (v : Byte) : (s.setFl v).fl = v := rfl
@[simp] theorem State.mem_setFl (s : State) (v : Byte) : (s.setFl v).mem = s.mem := rfl
@[simp] theorem State.status_setFl (s : State) (v : Byte) : (s.setFl v).status = s.status := rfl
@[simp] theorem State.cause_setFl (s : State) (v : Byte) : (s.setFl v).cause = s.cause := rfl
@[simp] theorem State.info_setFl (s : State) (v : Byte) : (s.setFl v).info = s.info := rfl
@[simp] theorem State.out_setFl (s : State) (v : Byte) : (s.setFl v).out = s.out := rfl

/-! ### setByte -/

@[simp] theorem State.reg_setByte (s : State) (a : Nat) (v : Byte) (j : Fin 8) : (s.setByte a v).reg j = s.reg j := rfl
@[simp] theorem State.pc_setByte (s : State) (a : Nat) (v : Byte) : (s.setByte a v).pc = s.pc := rfl
@[simp] theorem State.fl_setByte (s : State) (a : Nat) (v : Byte) : (s.setByte a v).fl = s.fl := rfl
@[simp] theorem State.mem_setByte (s : State) (a : Nat) (v : Byte) : (s.setByte a v).mem = s.mem.write a v := rfl
@[simp] theorem State.status_setByte (s : State) (a : Nat) (v : Byte) : (s.setByte a v).status = s.status := rfl
@[simp] theorem State.cause_setByte (s : State) (a : Nat) (v : Byte) : (s.setByte a v).cause = s.cause := rfl
@[simp] theorem State.info_setByte (s : State) (a : Nat) (v : Byte) : (s.setByte a v).info = s.info := rfl
@[simp] theorem State.out_setByte (s : State) (a : Nat) (v : Byte) : (s.setByte a v).out = s.out := rfl

/-! ### emit -/

@[simp] theorem State.reg_emit (s : State) (v : Byte) (j : Fin 8) : (s.emit v).reg j = s.reg j := rfl
@[simp] theorem State.pc_emit (s : State) (v : Byte) : (s.emit v).pc = s.pc := rfl
@[simp] theorem State.fl_emit (s : State) (v : Byte) : (s.emit v).fl = s.fl := rfl
@[simp] theorem State.mem_emit (s : State) (v : Byte) : (s.emit v).mem = s.mem := rfl
@[simp] theorem State.status_emit (s : State) (v : Byte) : (s.emit v).status = s.status := rfl
@[simp] theorem State.cause_emit (s : State) (v : Byte) : (s.emit v).cause = s.cause := rfl
@[simp] theorem State.info_emit (s : State) (v : Byte) : (s.emit v).info = s.info := rfl
@[simp] theorem State.out_emit (s : State) (v : Byte) : (s.emit v).out = s.out ++ [v] := rfl

/-! ### raise -/

@[simp] theorem State.reg_raise (s : State) (k : ErrorKind) (v : Nat) (j : Fin 8) : (s.raise k v).reg j = s.reg j := rfl
@[simp] theorem State.pc_raise (s : State) (k : ErrorKind) (v : Nat) : (s.raise k v).pc = s.pc := rfl
@[simp] theorem State.fl_raise (s : State) (k : ErrorKind) (v : Nat) : (s.raise k v).fl = s.fl := rfl
@[simp] theorem State.mem_raise (s : State) (k : ErrorKind) (v : Nat) : (s.raise k v).mem = s.mem := rfl
@[simp] theorem State.status_raise (s : State) (k : ErrorKind) (v : Nat) : (s.raise k v).status = k.status := rfl
@[simp] theorem State.cause_raise (s : State) (k : ErrorKind) (v : Nat) : (s.raise k v).cause = k.cause := rfl
@[simp] theorem State.info_raise (s : State) (k : ErrorKind) (v : Nat) : (s.raise k v).info = v := rfl
@[simp] theorem State.out_raise (s : State) (k : ErrorKind) (v : Nat) : (s.raise k v).out = s.out := rfl

/-! ### halt -/

@[simp] theorem State.reg_halt (s : State) (j : Fin 8) : (s.halt).reg j = s.reg j := rfl
@[simp] theorem State.pc_halt (s : State) : (s.halt).pc = s.pc := rfl
@[simp] theorem State.fl_halt (s : State) : (s.halt).fl = s.fl := rfl
@[simp] theorem State.mem_halt (s : State) : (s.halt).mem = s.mem := rfl
@[simp] theorem State.status_halt (s : State) : (s.halt).status = .halted := rfl
@[simp] theorem State.cause_halt (s : State) : (s.halt).cause = .none := rfl
@[simp] theorem State.info_halt (s : State) : (s.halt).info = s.info := rfl
@[simp] theorem State.out_halt (s : State) : (s.halt).out = s.out := rfl
/-! ### The stack pointer -/

@[simp] theorem State.reg_decSp (s : State) (j : Fin 8) :
    s.decSp.reg j = if j = spReg then s.reg spReg - 1 else s.reg j :=
  State.reg_setReg s spReg j _

@[simp] theorem State.reg_incSp (s : State) (j : Fin 8) :
    s.incSp.reg j = if j = spReg then s.reg spReg + 1 else s.reg j :=
  State.reg_setReg s spReg j _

@[simp] theorem State.pc_decSp (s : State) : s.decSp.pc = s.pc := rfl
@[simp] theorem State.fl_decSp (s : State) : s.decSp.fl = s.fl := rfl
@[simp] theorem State.mem_decSp (s : State) : s.decSp.mem = s.mem := rfl
@[simp] theorem State.status_decSp (s : State) : s.decSp.status = s.status := rfl
@[simp] theorem State.cause_decSp (s : State) : s.decSp.cause = s.cause := rfl
@[simp] theorem State.info_decSp (s : State) : s.decSp.info = s.info := rfl
@[simp] theorem State.out_decSp (s : State) : s.decSp.out = s.out := rfl
@[simp] theorem State.pc_incSp (s : State) : s.incSp.pc = s.pc := rfl
@[simp] theorem State.fl_incSp (s : State) : s.incSp.fl = s.fl := rfl
@[simp] theorem State.mem_incSp (s : State) : s.incSp.mem = s.mem := rfl
@[simp] theorem State.status_incSp (s : State) : s.incSp.status = s.status := rfl
@[simp] theorem State.cause_incSp (s : State) : s.incSp.cause = s.cause := rfl
@[simp] theorem State.info_incSp (s : State) : s.incSp.info = s.info := rfl
@[simp] theorem State.out_incSp (s : State) : s.incSp.out = s.out := rfl

/-- A stack address is an 8-bit value, so it is always in range (20_memory.md R43). -/
theorem State.stackTop_lt (s : State) : s.stackTop < 256 :=
  (s.reg spReg).isLt

/-- Two states with equal registers, read through the accessor, have equal register files. -/
theorem State.regs_ext {s t : State} (h : ∀ r, s.reg r = t.reg r) : s.regs = t.regs := by
  apply Vector.ext
  intro i hi
  exact h ⟨i, hi⟩

end Sys2Proof.Machine
end

