-- ==== Sys2Proof/Laws/Boot.lean ====
section
/-! SUPPORT. Laws/Boot.lean: everything loading a sequence of bytes does (spec/70_reset_and_hazards.md R182). -/

namespace Sys2Proof.Machine

/-- Loading writes no field but memory. -/
theorem State.loadFrom_fields (image : List Byte) (s : State) (addr : Nat) :
    (s.loadFrom addr image).regs = s.regs ∧ (s.loadFrom addr image).pc = s.pc ∧
      (s.loadFrom addr image).fl = s.fl ∧ (s.loadFrom addr image).status = s.status ∧
      (s.loadFrom addr image).cause = s.cause ∧ (s.loadFrom addr image).info = s.info ∧
      (s.loadFrom addr image).out = s.out := by
  induction image generalizing s addr with
  | nil => exact ⟨rfl, rfl, rfl, rfl, rfl, rfl, rfl⟩
  | cons v image ih => exact ih (s.setByte addr v) (addr + 1)

/-- Loading that fits keeps the canonical form. -/
theorem State.wf_loadFrom (image : List Byte) {s : State} {addr : Nat} (h : addr + image.length ≤ 256)
    (hs : s.mem.wf = true) : (s.loadFrom addr image).mem.wf = true := by
  induction image generalizing s addr with
  | nil => exact hs
  | cons v image ih =>
    rw [List.length_cons] at h
    exact ih (s := s.setByte addr v) (by omega) (Memory.wf_write (by omega) hs)

/-- Loading leaves every address outside the loaded bytes alone. -/
theorem State.read_loadFrom_outside (image : List Byte) {s : State} {addr a : Nat}
    (h : a < addr ∨ addr + image.length ≤ a) : (s.loadFrom addr image).mem.read a = s.mem.read a := by
  induction image generalizing s addr with
  | nil => rfl
  | cons v image ih =>
    rw [List.length_cons] at h
    exact (ih (s := s.setByte addr v) (by omega)).trans (Memory.read_write_other s.mem (by omega))

/-- The loaded bytes stand at ascending addresses. -/
theorem State.read_loadFrom_inside (image : List Byte) {s : State} {addr : Nat} (h : addr + image.length ≤ 256)
    (hs : s.mem.wf = true) {i : Nat} (hi : i < image.length) :
    (s.loadFrom addr image).mem.read (addr + i) = image[i] := by
  induction image generalizing s addr i with
  | nil => exact absurd hi (Nat.not_lt_zero i)
  | cons v image ih =>
    rw [List.length_cons] at h hi
    have hwf : (s.setByte addr v).mem.wf = true := Memory.wf_write (by omega) hs
    cases i with
    | zero =>
      exact (State.read_loadFrom_outside image (s := s.setByte addr v) (.inl (by omega))).trans
        (Memory.read_write_same hs)
    | succ i =>
      have := ih (s := s.setByte addr v) (addr := addr + 1) (by omega) hwf (i := i) (by omega)
      rw [show addr + (i + 1) = addr + 1 + i by omega]
      exact this

end Sys2Proof.Machine
end

