-- ==== Sys2Proof/Laws/Decode.lean ====
section
/-! SUPPORT. Laws/Decode.lean: what `classify` and `decode` give under a valid opcode map, and that the map of spec/30_encoding.md
R61 is valid. -/

namespace Sys2Proof

@[simp] theorem Mnemonic.mnemonic_instr (m : Mnemonic) (a b : Byte) : (m.instr a b).mnemonic = m := by
  cases m <;> rfl

theorem Mnemonic.mem_aluMnemonics (m : Mnemonic) : m ∈ aluMnemonics ↔ m.route = .alu := by
  cases m <;> decide

theorem Mnemonic.mem_tableMnemonics (m : Mnemonic) : m ∈ tableMnemonics ↔ m.route = .table := by
  cases m <;> decide

/-- The map of 30_encoding.md R61 gives every mnemonic a byte of its own, with bit 5 set exactly on the ALU's (R63). -/
theorem opcodeMap_valid : opcodeMap.Valid := by
  constructor
  · intro m n h
    revert h
    cases m <;> cases n <;> decide
  · intro m
    cases m <;> decide

/-- Bit 5 of an opcode selects its route (30_encoding.md R63). -/
theorem bit5_iff_alu (m : Mnemonic) : (opcodeMap m).getLsbD 5 = decide (m.route = .alu) := by
  cases m <;> decide

/-- Searching a list for the byte of one of its members finds that member. -/
theorem find?_opcode {om : OpcodeMap} (h : om.Valid) {l : List Mnemonic} {m : Mnemonic} (hm : m ∈ l) :
    (l.find? fun k => om k = om m) = some m := by
  induction l with
  | nil => simp at hm
  | cons k l ih =>
    rw [List.find?_cons]
    by_cases hk : om k = om m
    · simp [h.1 k m hk]
    · have hne : m ≠ k := fun e => hk (by rw [e])
      simp only [hk, decide_false]
      exact ih ((List.mem_cons.1 hm).resolve_left hne)

/-- Under a valid map the byte of a mnemonic is classified as that mnemonic, on its route (30_encoding.md R65). -/
theorem classify_opcode {om : OpcodeMap} (h : om.Valid) (m : Mnemonic) :
    classify om (om m) = match m.route with
      | .alu => .alu m
      | .table => .table m := by
  unfold classify
  cases hr : m.route with
  | alu =>
    rw [if_pos ((h.2 m).2 hr), find?_opcode h ((Mnemonic.mem_aluMnemonics m).2 hr)]
  | table =>
    rw [if_neg (fun e => by rw [(h.2 m).1 e] at hr; cases hr), find?_opcode h ((Mnemonic.mem_tableMnemonics m).2 hr)]

/-- The byte of a mnemonic decodes to that mnemonic's instruction, whatever the two bytes after it. -/
theorem decode_opcode {om : OpcodeMap} (h : om.Valid) (m : Mnemonic) (a b : Byte) :
    decode om ⟨om m, a, b⟩ = .instr (m.instr a b) := by
  unfold decode
  rw [classify_opcode h m]
  cases m.route <;> rfl

/-- What decode can answer: an instruction whose mnemonic has the fetched byte, or a rejection of a byte no mnemonic of its
route has. -/
theorem decode_cases (om : OpcodeMap) (f : Fetched) :
    (∃ m, om m = f.ir ∧ decode om f = .instr (m.instr f.opA f.opB)) ∨
      (f.ir.getLsbD 5 = true ∧ (∀ m, m.route = .alu → om m ≠ f.ir) ∧ decode om f = .unsupported f.ir) ∨
      (f.ir.getLsbD 5 = false ∧ (∀ m, m.route = .table → om m ≠ f.ir) ∧ decode om f = .unknown f.ir) := by
  unfold decode classify
  cases h5 : f.ir.getLsbD 5 with
  | true =>
    rw [if_pos rfl]
    cases hf : aluMnemonics.find? fun m => om m = f.ir with
    | some m => exact .inl ⟨m, by simpa using List.find?_some hf, rfl⟩
    | none =>
      refine .inr (.inl ⟨rfl, fun m hm => ?_, rfl⟩)
      simpa using List.find?_eq_none.1 hf m ((Mnemonic.mem_aluMnemonics m).2 hm)
  | false =>
    rw [if_neg (by decide)]
    cases hf : tableMnemonics.find? fun m => om m = f.ir with
    | some m => exact .inl ⟨m, by simpa using List.find?_some hf, rfl⟩
    | none =>
      refine .inr (.inr ⟨rfl, fun m hm => ?_, rfl⟩)
      simpa using List.find?_eq_none.1 hf m ((Mnemonic.mem_tableMnemonics m).2 hm)

/-- An instruction is its mnemonic with its operand bytes. -/
theorem Instr.instr_mnemonic (i : Instr) (rest : List Byte) :
    i.mnemonic.instr ((i.operands ++ rest).getD 0 0) ((i.operands ++ rest).getD 1 0) = i := by
  cases i <;> rfl

end Sys2Proof
end

