-- ==== Sys2Proof/Laws/Ops.lean ====
section
/-! SUPPORT. Laws/Ops.lean: for each shared operation, what it answers in each of its cases, so that a proof about an
instruction cites these and unfolds none of them. -/

namespace Sys2Proof.Machine

/-! ### Register operands (spec/10_state.md R23, 41_alu.md R101) -/

theorem regIndex?_of_lt {a : Byte} (h : a.toNat < 8) : regIndex? a = some ⟨a.toNat, h⟩ :=
  dif_pos h

theorem regIndex?_of_ge {a : Byte} (h : 8 ≤ a.toNat) : regIndex? a = none :=
  dif_neg (by omega)

/-- Two index bytes name the same register only if they are the same byte. -/
theorem regIndex_inj {a b : Byte} (ha : a.toNat < 8) (hb : b.toNat < 8)
    (h : (⟨a.toNat, ha⟩ : Fin 8) = ⟨b.toNat, hb⟩) : a = b :=
  BitVec.eq_of_toNat_eq (Fin.mk.inj h)

/-- The index byte of the stack pointer is 7. -/
theorem regIndex_eq_spReg {a : Byte} (ha : a.toNat < 8) : (⟨a.toNat, ha⟩ : Fin 8) = spReg ↔ a = 7 := by
  constructor
  · intro h
    have hv : a.toNat = 7 := congrArg Fin.val h
    exact BitVec.eq_of_toNat_eq hv
  · rintro rfl
    rfl

theorem withReg_of_lt {s : State} {a : Byte} {next : Fin 8 → Result} (h : a.toNat < 8) :
    withReg s a next = next ⟨a.toNat, h⟩ := by
  rw [withReg, regIndex?_of_lt h]

theorem withReg_of_ge {s : State} {a : Byte} {next : Fin 8 → Result} (h : 8 ≤ a.toNat) :
    withReg s a next = .next (s.raise .badRegister a.toNat) := by
  rw [withReg, regIndex?_of_ge h]

/-- A use of one register operand either raises BadRegister or goes on with the register. -/
theorem withReg_cases (s : State) (a : Byte) (next : Fin 8 → Result) :
    (8 ≤ a.toNat ∧ withReg s a next = .next (s.raise .badRegister a.toNat)) ∨
      ∃ h : a.toNat < 8, withReg s a next = next ⟨a.toNat, h⟩ := by
  rcases Nat.lt_or_ge a.toNat 8 with h | h
  · exact .inr ⟨h, withReg_of_lt h⟩
  · exact .inl ⟨h, withReg_of_ge h⟩

theorem withRegs_of_lt {s : State} {a b : Byte} {next : Fin 8 → Fin 8 → Result} (ha : a.toNat < 8)
    (hb : b.toNat < 8) : withRegs s a b next = next ⟨a.toNat, ha⟩ ⟨b.toNat, hb⟩ := by
  rw [withRegs, withReg_of_lt ha, withReg_of_lt hb]

theorem withRegs_of_ge_left {s : State} {a b : Byte} {next : Fin 8 → Fin 8 → Result} (ha : 8 ≤ a.toNat) :
    withRegs s a b next = .next (s.raise .badRegister a.toNat) :=
  withReg_of_ge ha

theorem withRegs_of_ge_right {s : State} {a b : Byte} {next : Fin 8 → Fin 8 → Result} (ha : a.toNat < 8)
    (hb : 8 ≤ b.toNat) : withRegs s a b next = .next (s.raise .badRegister b.toNat) := by
  rw [withRegs, withReg_of_lt ha, withReg_of_ge hb]

/-- A use of two register operands raises BadRegister for one of them or goes on with both registers. -/
theorem withRegs_cases (s : State) (a b : Byte) (next : Fin 8 → Fin 8 → Result) :
    (∃ v, 8 ≤ v ∧ v ≤ 255 ∧ withRegs s a b next = .next (s.raise .badRegister v)) ∨
      ∃ (ha : a.toNat < 8) (hb : b.toNat < 8), withRegs s a b next = next ⟨a.toNat, ha⟩ ⟨b.toNat, hb⟩ := by
  rcases Nat.lt_or_ge a.toNat 8 with ha | ha
  · rcases Nat.lt_or_ge b.toNat 8 with hb | hb
    · exact .inr ⟨ha, hb, withRegs_of_lt ha hb⟩
    · exact .inl ⟨_, hb, by omega, withRegs_of_ge_right ha hb⟩
  · exact .inl ⟨_, ha, by omega, withRegs_of_ge_left ha⟩

/-! ### Checked memory access (20_memory.md R42) -/

theorem memRead_of_le {start s : State} {addr : Nat} {next : Byte → Result} (h : addr ≤ 255) :
    memRead start s addr next = next (s.mem.read addr) :=
  if_neg (by omega)

theorem memRead_of_gt {start s : State} {addr : Nat} {next : Byte → Result} (h : 255 < addr) :
    memRead start s addr next = .next (start.raise .boundsFault addr) :=
  if_pos h

theorem memWrite_of_le {start s : State} {addr : Nat} {v : Byte} {next : State → Result} (h : addr ≤ 255) :
    memWrite start s addr v next = next (s.setByte addr v) :=
  if_neg (by omega)

theorem memWrite_of_gt {start s : State} {addr : Nat} {v : Byte} {next : State → Result} (h : 255 < addr) :
    memWrite start s addr v next = .next (start.raise .boundsFault addr) :=
  if_pos h

/-! ### The stack: push and pop never raise (20_memory.md R43) -/

theorem push_eq (s : State) (value : State → Byte) (next : State → Result) :
    push s value next = next (s.decSp.setByte s.decSp.stackTop (value s.decSp)) :=
  memWrite_of_le (Nat.le_of_lt_succ s.decSp.stackTop_lt)

theorem pop_eq (s : State) (put : State → Byte → State) (next : State → Result) :
    pop s put next = next (put s (s.mem.read s.stackTop)).incSp :=
  memRead_of_le (Nat.le_of_lt_succ s.stackTop_lt)

/-! ### Fetch (40_engine_cycle.md R81) -/

theorem fetch_of_le {s : State} {next : Fetched → Result} (h : s.pc + 2 ≤ 255) :
    fetch s next = next s.fetched := by
  rw [fetch, memRead_of_le (by omega), memRead_of_le (by omega), memRead_of_le h]
  rfl

/-- A fetch that does not fit raises BoundsFault with the first address above 255. -/
theorem fetch_of_gt {s : State} {next : Fetched → Result} (h : 253 < s.pc) :
    fetch s next = .next (s.raise .boundsFault (max 256 s.pc)) := by
  unfold fetch
  rcases Nat.lt_or_ge 255 s.pc with h0 | h0
  · rw [memRead_of_gt h0, Nat.max_eq_right h0]
  · rw [memRead_of_le h0]
    rcases Nat.lt_or_ge 255 (s.pc + 1) with h1 | h1
    · rw [memRead_of_gt h1, show s.pc + 1 = max 256 s.pc by omega]
    · rw [memRead_of_le h1, memRead_of_gt (by omega), show s.pc + 2 = max 256 s.pc by omega]

end Sys2Proof.Machine
end

