-- ==== Sys2Proof/Laws/PerInstr.lean ====
section
/-! SUPPORT. Laws/PerInstr.lean: the families of statements made per instruction, one lemma per constructor of Instr. -/

namespace Sys2Proof.Laws.EncodedLength

/-- The bytes of an instruction are as many as its format's length, 1 to 3, and its opcode byte has bit 5 set exactly when it is
routed to the ALU (spec/30_encoding.md R60, R63). -/
def Statement (i : Instr) : Prop :=
  (encode opcodeMap i).length = i.length ∧ 1 ≤ i.length ∧ i.length ≤ 3 ∧
    (opcodeMap i.mnemonic).getLsbD 5 = decide (i.mnemonic.route = .alu)

theorem halt : Statement .halt := ⟨rfl, Nat.le_of_ble_eq_true rfl, Nat.le_of_ble_eq_true rfl, bit5_iff_alu _⟩

theorem ldi (a imm : Byte) : Statement (.ldi a imm) := ⟨rfl, Nat.le_of_ble_eq_true rfl, Nat.le_of_ble_eq_true rfl, bit5_iff_alu _⟩

theorem prn (a : Byte) : Statement (.prn a) := ⟨rfl, Nat.le_of_ble_eq_true rfl, Nat.le_of_ble_eq_true rfl, bit5_iff_alu _⟩

theorem push (a : Byte) : Statement (.push a) := ⟨rfl, Nat.le_of_ble_eq_true rfl, Nat.le_of_ble_eq_true rfl, bit5_iff_alu _⟩

theorem pop (a : Byte) : Statement (.pop a) := ⟨rfl, Nat.le_of_ble_eq_true rfl, Nat.le_of_ble_eq_true rfl, bit5_iff_alu _⟩

theorem call (a : Byte) : Statement (.call a) := ⟨rfl, Nat.le_of_ble_eq_true rfl, Nat.le_of_ble_eq_true rfl, bit5_iff_alu _⟩

theorem ret : Statement .ret := ⟨rfl, Nat.le_of_ble_eq_true rfl, Nat.le_of_ble_eq_true rfl, bit5_iff_alu _⟩

theorem jmp (a : Byte) : Statement (.jmp a) := ⟨rfl, Nat.le_of_ble_eq_true rfl, Nat.le_of_ble_eq_true rfl, bit5_iff_alu _⟩

theorem jeq (a : Byte) : Statement (.jeq a) := ⟨rfl, Nat.le_of_ble_eq_true rfl, Nat.le_of_ble_eq_true rfl, bit5_iff_alu _⟩

theorem jne (a : Byte) : Statement (.jne a) := ⟨rfl, Nat.le_of_ble_eq_true rfl, Nat.le_of_ble_eq_true rfl, bit5_iff_alu _⟩

theorem add (a b : Byte) : Statement (.add a b) := ⟨rfl, Nat.le_of_ble_eq_true rfl, Nat.le_of_ble_eq_true rfl, bit5_iff_alu _⟩

theorem sub (a b : Byte) : Statement (.sub a b) := ⟨rfl, Nat.le_of_ble_eq_true rfl, Nat.le_of_ble_eq_true rfl, bit5_iff_alu _⟩

theorem mul (a b : Byte) : Statement (.mul a b) := ⟨rfl, Nat.le_of_ble_eq_true rfl, Nat.le_of_ble_eq_true rfl, bit5_iff_alu _⟩

theorem div (a b : Byte) : Statement (.div a b) := ⟨rfl, Nat.le_of_ble_eq_true rfl, Nat.le_of_ble_eq_true rfl, bit5_iff_alu _⟩

theorem cmp (a b : Byte) : Statement (.cmp a b) := ⟨rfl, Nat.le_of_ble_eq_true rfl, Nat.le_of_ble_eq_true rfl, bit5_iff_alu _⟩

end Sys2Proof.Laws.EncodedLength
end

