-- ==== Sys2Proof/Laws/Step.lean ====
section
/-! SUPPORT. Laws/Step.lean: what each meaning answers once its register operands are checked, and the cases of a step. -/

namespace Sys2Proof.Machine

/-! ### Each meaning, its checks passed -/

theorem exec_halt (s : State) : exec .halt s = .next s.halt := rfl

theorem exec_ldi {a imm : Byte} {s : State} (ha : a.toNat < 8) :
    exec (.ldi a imm) s = .next ((s.setReg ⟨a.toNat, ha⟩ imm).advance 3) :=
  withReg_of_lt ha

theorem exec_prn {a : Byte} {s : State} (ha : a.toNat < 8) :
    exec (.prn a) s = .next ((s.emit (s.reg ⟨a.toNat, ha⟩)).advance 2) :=
  withReg_of_lt ha

theorem exec_push {a : Byte} {s : State} (ha : a.toNat < 8) :
    exec (.push a) s =
      .next ((s.decSp.setByte s.decSp.stackTop (s.decSp.reg ⟨a.toNat, ha⟩)).advance 2) :=
  (withReg_of_lt ha).trans (push_eq ..)

theorem exec_pop {a : Byte} {s : State} (ha : a.toNat < 8) :
    exec (.pop a) s = .next ((s.setReg ⟨a.toNat, ha⟩ (s.mem.read s.stackTop)).incSp.advance 2) :=
  (withReg_of_lt ha).trans (pop_eq ..)

theorem exec_call {a : Byte} {s : State} (ha : a.toNat < 8) :
    exec (.call a) s =
      .next ((s.decSp.setByte s.decSp.stackTop (BitVec.ofNat 8 (s.pc + 2))).setPc
        (s.decSp.reg ⟨a.toNat, ha⟩).toNat) :=
  (withReg_of_lt ha).trans (push_eq ..)

theorem exec_ret (s : State) : exec .ret s = .next (s.setPc (s.mem.read s.stackTop).toNat).incSp :=
  pop_eq s (fun t v => t.setPc v.toNat) fun t => .next t

theorem exec_jmp {a : Byte} {s : State} (ha : a.toNat < 8) :
    exec (.jmp a) s = .next (s.setPc (s.reg ⟨a.toNat, ha⟩).toNat) :=
  withReg_of_lt ha

theorem exec_jeq_taken {a : Byte} {s : State} (h : flagE s.fl = true) :
    exec (.jeq a) s = exec (.jmp a) s :=
  if_pos h

theorem exec_jeq_not_taken {a : Byte} {s : State} (h : flagE s.fl = false) :
    exec (.jeq a) s = .next (s.advance 2) :=
  if_neg (by simp [h])

theorem exec_jne_taken {a : Byte} {s : State} (h : flagE s.fl = false) :
    exec (.jne a) s = exec (.jmp a) s :=
  if_pos (by simp [h])

theorem exec_jne_not_taken {a : Byte} {s : State} (h : flagE s.fl = true) :
    exec (.jne a) s = .next (s.advance 2) :=
  if_neg (by simp [h])

theorem exec_add {a b : Byte} {s : State} (ha : a.toNat < 8) (hb : b.toNat < 8) :
    exec (.add a b) s =
      .next ((s.setReg ⟨a.toNat, ha⟩ (aluAdd (s.reg ⟨a.toNat, ha⟩) (s.reg ⟨b.toNat, hb⟩))).advance 3) :=
  withRegs_of_lt ha hb

theorem exec_sub {a b : Byte} {s : State} (ha : a.toNat < 8) (hb : b.toNat < 8) :
    exec (.sub a b) s =
      .next ((s.setReg ⟨a.toNat, ha⟩ (aluSub (s.reg ⟨a.toNat, ha⟩) (s.reg ⟨b.toNat, hb⟩))).advance 3) :=
  withRegs_of_lt ha hb

theorem exec_mul {a b : Byte} {s : State} (ha : a.toNat < 8) (hb : b.toNat < 8) :
    exec (.mul a b) s =
      .next ((s.setReg ⟨a.toNat, ha⟩ (aluMul (s.reg ⟨a.toNat, ha⟩) (s.reg ⟨b.toNat, hb⟩))).advance 3) :=
  withRegs_of_lt ha hb

theorem exec_div {a b : Byte} {s : State} (ha : a.toNat < 8) (hb : b.toNat < 8) (h : s.reg ⟨b.toNat, hb⟩ ≠ 0) :
    exec (.div a b) s =
      .next ((s.setReg ⟨a.toNat, ha⟩ (aluDiv (s.reg ⟨a.toNat, ha⟩) (s.reg ⟨b.toNat, hb⟩))).advance 3) :=
  (withRegs_of_lt ha hb).trans (if_neg h)

theorem exec_div_zero {a b : Byte} {s : State} (ha : a.toNat < 8) (hb : b.toNat < 8)
    (h : s.reg ⟨b.toNat, hb⟩ = 0) : exec (.div a b) s = .next (s.raise .divideByZero 0xA3) :=
  (withRegs_of_lt ha hb).trans (if_pos h)

theorem exec_cmp {a b : Byte} {s : State} (ha : a.toNat < 8) (hb : b.toNat < 8) :
    exec (.cmp a b) s =
      .next ((s.setFl (compareFlags (s.reg ⟨a.toNat, ha⟩) (s.reg ⟨b.toNat, hb⟩))).advance 3) :=
  withRegs_of_lt ha hb

/-! ### What an instruction can do -/

/-- Everything an instruction can do, by the shape of its effect: raise one of its two errors with nothing else written, or
complete with exactly the writes its rule names. -/
theorem exec_cases (i : Instr) (s : State) : ∃ t, exec i s = .next t ∧
    ((∃ v, 8 ≤ v ∧ v ≤ 255 ∧ t = s.raise .badRegister v) ∨
      (t = s.raise .divideByZero 0xA3) ∨
      (i = .halt ∧ t = s.halt) ∨
      (∃ (a : Byte) (ha : a.toNat < 8) (v : Byte),
        (i = .ldi a v ∨ ∃ b, i = .add a b ∨ i = .sub a b ∨ i = .mul a b ∨ i = .div a b) ∧
        t = (s.setReg ⟨a.toNat, ha⟩ v).advance 3) ∨
      (∃ (a : Byte) (ha : a.toNat < 8), i = .prn a ∧ t = (s.emit (s.reg ⟨a.toNat, ha⟩)).advance 2) ∨
      (∃ (a : Byte) (ha : a.toNat < 8), i = .push a ∧
        t = (s.decSp.setByte s.decSp.stackTop (s.decSp.reg ⟨a.toNat, ha⟩)).advance 2) ∨
      (∃ (a : Byte) (ha : a.toNat < 8), i = .pop a ∧
        t = (s.setReg ⟨a.toNat, ha⟩ (s.mem.read s.stackTop)).incSp.advance 2) ∨
      (∃ (a : Byte) (ha : a.toNat < 8), i = .call a ∧
        t = (s.decSp.setByte s.decSp.stackTop (BitVec.ofNat 8 (s.pc + 2))).setPc
          (s.decSp.reg ⟨a.toNat, ha⟩).toNat) ∨
      (i = .ret ∧ t = (s.setPc (s.mem.read s.stackTop).toNat).incSp) ∨
      (∃ (a : Byte) (ha : a.toNat < 8), (i = .jmp a ∨ i = .jeq a ∨ i = .jne a) ∧
        t = s.setPc (s.reg ⟨a.toNat, ha⟩).toNat) ∨
      (∃ a : Byte, (i = .jeq a ∨ i = .jne a) ∧ t = s.advance 2) ∨
      (∃ (a b : Byte) (ha : a.toNat < 8) (hb : b.toNat < 8), i = .cmp a b ∧
        t = (s.setFl (compareFlags (s.reg ⟨a.toNat, ha⟩) (s.reg ⟨b.toNat, hb⟩))).advance 3)) := by
  have jump : ∀ a : Byte, i = .jmp a ∨ i = .jeq a ∨ i = .jne a →
      (∃ v, 8 ≤ v ∧ v ≤ 255 ∧ exec (.jmp a) s = .next (s.raise .badRegister v)) ∨
        ∃ ha : a.toNat < 8, exec (.jmp a) s = .next (s.setPc (s.reg ⟨a.toNat, ha⟩).toNat) := by
    intro a _
    rcases Nat.lt_or_ge a.toNat 8 with ha | ha
    · exact .inr ⟨ha, exec_jmp ha⟩
    · exact .inl ⟨a.toNat, ha, by omega, withReg_of_ge ha⟩
  cases i with
  | halt => exact ⟨_, rfl, by simp⟩
  | ret => exact ⟨_, exec_ret s, by simp⟩
  | ldi a imm =>
    rcases Nat.lt_or_ge a.toNat 8 with ha | ha
    · exact ⟨_, exec_ldi ha, .inr (.inr (.inr (.inl ⟨a, ha, imm, .inl rfl, rfl⟩)))⟩
    · exact ⟨_, withReg_of_ge ha, .inl ⟨_, ha, by omega, rfl⟩⟩
  | prn a =>
    rcases Nat.lt_or_ge a.toNat 8 with ha | ha
    · exact ⟨_, exec_prn ha, .inr (.inr (.inr (.inr (.inl ⟨a, ha, rfl, rfl⟩))))⟩
    · exact ⟨_, withReg_of_ge ha, .inl ⟨_, ha, by omega, rfl⟩⟩
  | push a =>
    rcases Nat.lt_or_ge a.toNat 8 with ha | ha
    · exact ⟨_, exec_push ha, .inr (.inr (.inr (.inr (.inr (.inl ⟨a, ha, rfl, rfl⟩)))))⟩
    · exact ⟨_, withReg_of_ge ha, .inl ⟨_, ha, by omega, rfl⟩⟩
  | pop a =>
    rcases Nat.lt_or_ge a.toNat 8 with ha | ha
    · exact ⟨_, exec_pop ha, .inr (.inr (.inr (.inr (.inr (.inr (.inl ⟨a, ha, rfl, rfl⟩))))))⟩
    · exact ⟨_, withReg_of_ge ha, .inl ⟨_, ha, by omega, rfl⟩⟩
  | call a =>
    rcases Nat.lt_or_ge a.toNat 8 with ha | ha
    · exact ⟨_, exec_call ha, .inr (.inr (.inr (.inr (.inr (.inr (.inr (.inl ⟨a, ha, rfl, rfl⟩)))))))⟩
    · exact ⟨_, withReg_of_ge ha, .inl ⟨_, ha, by omega, rfl⟩⟩
  | jmp a =>
    rcases jump a (by simp) with ⟨v, h8, hv, h⟩ | ⟨ha, h⟩
    · exact ⟨_, h, .inl ⟨v, h8, hv, rfl⟩⟩
    · exact ⟨_, h, .inr (.inr (.inr (.inr (.inr (.inr (.inr (.inr (.inr (.inl ⟨a, ha, by simp, rfl⟩)))))))))⟩
  | jeq a =>
    cases hE : flagE s.fl with
    | false =>
      exact ⟨_, exec_jeq_not_taken hE,
        .inr (.inr (.inr (.inr (.inr (.inr (.inr (.inr (.inr (.inr (.inl ⟨a, by simp, rfl⟩))))))))))⟩
    | true =>
      rw [exec_jeq_taken hE]
      rcases jump a (by simp) with ⟨v, h8, hv, h⟩ | ⟨ha, h⟩
      · exact ⟨_, h, .inl ⟨v, h8, hv, rfl⟩⟩
      · exact ⟨_, h, .inr (.inr (.inr (.inr (.inr (.inr (.inr (.inr (.inr (.inl ⟨a, ha, by simp, rfl⟩)))))))))⟩
  | jne a =>
    cases hE : flagE s.fl with
    | true =>
      exact ⟨_, exec_jne_not_taken hE,
        .inr (.inr (.inr (.inr (.inr (.inr (.inr (.inr (.inr (.inr (.inl ⟨a, by simp, rfl⟩))))))))))⟩
    | false =>
      rw [exec_jne_taken hE]
      rcases jump a (by simp) with ⟨v, h8, hv, h⟩ | ⟨ha, h⟩
      · exact ⟨_, h, .inl ⟨v, h8, hv, rfl⟩⟩
      · exact ⟨_, h, .inr (.inr (.inr (.inr (.inr (.inr (.inr (.inr (.inr (.inl ⟨a, ha, by simp, rfl⟩)))))))))⟩
  | add a b =>
    rcases withRegs_cases s a b _ with ⟨v, h8, hv, h⟩ | ⟨ha, hb, h⟩
    · exact ⟨_, h, .inl ⟨v, h8, hv, rfl⟩⟩
    · exact ⟨_, h, .inr (.inr (.inr (.inl ⟨a, ha, _, .inr ⟨b, by simp⟩, rfl⟩)))⟩
  | sub a b =>
    rcases withRegs_cases s a b _ with ⟨v, h8, hv, h⟩ | ⟨ha, hb, h⟩
    · exact ⟨_, h, .inl ⟨v, h8, hv, rfl⟩⟩
    · exact ⟨_, h, .inr (.inr (.inr (.inl ⟨a, ha, _, .inr ⟨b, by simp⟩, rfl⟩)))⟩
  | mul a b =>
    rcases withRegs_cases s a b _ with ⟨v, h8, hv, h⟩ | ⟨ha, hb, h⟩
    · exact ⟨_, h, .inl ⟨v, h8, hv, rfl⟩⟩
    · exact ⟨_, h, .inr (.inr (.inr (.inl ⟨a, ha, _, .inr ⟨b, by simp⟩, rfl⟩)))⟩
  | div a b =>
    rcases withRegs_cases s a b _ with ⟨v, h8, hv, h⟩ | ⟨ha, hb, _⟩
    · exact ⟨_, h, .inl ⟨v, h8, hv, rfl⟩⟩
    · by_cases h0 : s.reg ⟨b.toNat, hb⟩ = 0
      · exact ⟨_, exec_div_zero ha hb h0, .inr (.inl rfl)⟩
      · exact ⟨_, exec_div ha hb h0, .inr (.inr (.inr (.inl ⟨a, ha, _, .inr ⟨b, by simp⟩, rfl⟩)))⟩
  | cmp a b =>
    rcases withRegs_cases s a b _ with ⟨v, h8, hv, h⟩ | ⟨ha, hb, h⟩
    · exact ⟨_, h, .inl ⟨v, h8, hv, rfl⟩⟩
    · exact ⟨_, h, .inr (.inr (.inr (.inr (.inr (.inr (.inr (.inr (.inr (.inr (.inr
        ⟨a, b, ha, hb, rfl, rfl⟩))))))))))⟩

/-! ### The cases of a step -/

theorem step_not_running {s : State} (h : s.status ≠ .running) : step s = .fault .notRunning := by
  unfold step
  cases hs : s.status
  · exact absurd hs h
  · rfl
  · rfl

theorem step_running {s : State} (h : s.status = .running) :
    step s = fetch s fun f => route exec (decode opcodeMap f) s := by
  rw [step, h]

/-- A running step either raises BoundsFault or runs what decode gave of the three bytes at pc. -/
theorem step_cases {s : State} (h : s.status = .running) :
    (253 < s.pc ∧ step s = .next (s.raise .boundsFault (max 256 s.pc))) ∨
      (s.pc ≤ 253 ∧ step s = route exec (decode opcodeMap s.fetched) s) := by
  rcases Nat.lt_or_ge 253 s.pc with hpc | hpc
  · exact .inl ⟨hpc, (step_running h).trans (fetch_of_gt hpc)⟩
  · exact .inr ⟨hpc, (step_running h).trans (fetch_of_le (by omega))⟩

/-! ### Storing an opcode-table word -/

/-- Storing three bytes where they fit makes them the ones the next step fetches. -/
theorem fetched_pokeFetched {s : State} {f : Fetched} (hpc : s.pc + 2 ≤ 255) (hs : s.mem.wf = true) :
    (s.pokeFetched f).fetched = f := by
  have h1 : (s.mem.write s.pc f.ir).wf = true := Memory.wf_write (by omega) hs
  have h2 : ((s.mem.write s.pc f.ir).write (s.pc + 1) f.opA).wf = true := Memory.wf_write (by omega) h1
  have hmem : (s.pokeFetched f).mem =
      ((s.mem.write s.pc f.ir).write (s.pc + 1) f.opA).write (s.pc + 2) f.opB := by
    simp [State.pokeFetched, State.pokeByte, show s.pc < 256 by omega, show s.pc + 1 < 256 by omega,
      show s.pc + 2 < 256 by omega]
  have hp : (s.pokeFetched f).pc = s.pc := by
    simp [State.pokeFetched, State.pokeByte, show s.pc < 256 by omega, show s.pc + 1 < 256 by omega,
      show s.pc + 2 < 256 by omega]
  have hir : (s.pokeFetched f).mem.read s.pc = f.ir := by
    rw [hmem, Memory.read_write_other _ (by omega), Memory.read_write_other _ (by omega), Memory.read_write_same hs]
  have hA : (s.pokeFetched f).mem.read (s.pc + 1) = f.opA := by
    rw [hmem, Memory.read_write_other _ (by omega), Memory.read_write_same h1]
  have hB : (s.pokeFetched f).mem.read (s.pc + 2) = f.opB := by
    rw [hmem, Memory.read_write_same h2]
  rw [State.fetched, hp, hir, hA, hB]

end Sys2Proof.Machine
end

