-- ==== Sys2Proof/Machine/Asm.lean ====
section
/-! DEFINITION. Machine/Asm.lean: the canonical assembler text of an instruction (spec/30_encoding.md R68). No step reads it. -/

namespace Sys2Proof

/-- `Ra`: a register operand as R68 writes it. -/
def regText (a : Byte) : String :=
  "R" ++ toString a.toNat

/-- The mnemonic as R62 spells it. -/
def Mnemonic.text : Mnemonic → String
  | .halt => "HALT"
  | .ldi => "LDI"
  | .prn => "PRN"
  | .push => "PUSH"
  | .pop => "POP"
  | .call => "CALL"
  | .ret => "RET"
  | .jmp => "JMP"
  | .jeq => "JEQ"
  | .jne => "JNE"
  | .add => "ADD"
  | .sub => "SUB"
  | .mul => "MUL"
  | .div => "DIV"
  | .cmp => "CMP"

/-- The operands' text, each after a space: registers as `R0`.., the immediate in decimal (R68). -/
def Instr.operandText : Instr → String
  | .halt | .ret => ""
  | .ldi a imm => " " ++ regText a ++ " " ++ toString imm.toNat
  | .prn a | .push a | .pop a | .call a | .jmp a | .jeq a | .jne a => " " ++ regText a
  | .add a b | .sub a b | .mul a b | .div a b | .cmp a b => " " ++ regText a ++ " " ++ regText b

/-- The instruction in the canonical form of R68. -/
def Instr.text (i : Instr) : String :=
  i.mnemonic.text ++ i.operandText

end Sys2Proof
end

