-- ==== Sys2Proof/Tests/Slice0.lean ====
section
/-! SUPPORT. Tests/Slice0.lean: the model's own tests. Expected results are the vectors of spec/95_test_vectors.md (named by
their ids) and words written out from 30_encoding.md R61; then a witness for the hypotheses of every obligation. -/

namespace Sys2Proof.Tests

open Sys2Proof Sys2Proof.Machine

/-- The reset state with bytes placed at `pc` and pc set there. -/
def code (pc : Nat) (bytes : List Byte) (s : State := State.reset) : State :=
  (s.loadFrom pc bytes).setPc pc

/-- What `f` reads off the state one step later. -/
def after {α : Type} (s : State) (f : State → α) : Option α :=
  match step s with
  | .next t => some (f t)
  | .fault _ => none
  | .refused _ => none

/-- status, cause and info after a step. -/
def ended (t : State) : Status × Cause × Nat := (t.status, t.cause, t.info)

/-- The reset state with R0 and R1 set. -/
def r01 (x y : Byte) : State := (State.reset.setReg 0 x).setReg 1 y

/-! ### Well-formedness: each check refuses an ill-formed term (10_state.md R23) -/

theorem test_wf_accepts_r7 : Instr.wf (.add 7 7) = true ∧ Instr.wf (.ldi 7 255) = true ∧ Instr.wf .ret = true := by decide
theorem test_wf_refuses_ldi_r8 : Instr.wf (.ldi 8 0) = false := by decide
theorem test_wf_refuses_prn_r8 : Instr.wf (.prn 8) = false := by decide
theorem test_wf_refuses_push_r8 : Instr.wf (.push 8) = false := by decide
theorem test_wf_refuses_pop_r8 : Instr.wf (.pop 8) = false := by decide
theorem test_wf_refuses_call_r8 : Instr.wf (.call 8) = false := by decide
theorem test_wf_refuses_jumps_r8 :
    Instr.wf (.jmp 8) = false ∧ Instr.wf (.jeq 9) = false ∧ Instr.wf (.jne 255) = false := by decide
theorem test_wf_refuses_alu_first_r8 :
    Instr.wf (.add 8 0) = false ∧ Instr.wf (.sub 8 0) = false ∧ Instr.wf (.mul 8 0) = false ∧
      Instr.wf (.div 8 0) = false ∧ Instr.wf (.cmp 8 0) = false := by decide
theorem test_wf_refuses_alu_second_r8 :
    Instr.wf (.add 0 8) = false ∧ Instr.wf (.sub 0 8) = false ∧ Instr.wf (.mul 0 8) = false ∧
      Instr.wf (.div 0 8) = false ∧ Instr.wf (.cmp 0 8) = false := by decide

/-! ### Decoding: every constructor by a word written out from 30_encoding.md R61 (bit 7 first) -/

theorem test_decode_halt : decode opcodeMap ⟨0b00000001, 0xFF, 0xFE⟩ = .instr .halt := by decide
theorem test_decode_ldi : decode opcodeMap ⟨0b10000010, 0x03, 0xC8⟩ = .instr (.ldi 3 200) := by decide
theorem test_decode_prn : decode opcodeMap ⟨0b01000111, 0x05, 0xFF⟩ = .instr (.prn 5) := by decide
theorem test_decode_push : decode opcodeMap ⟨0b01000101, 0x02, 0xFF⟩ = .instr (.push 2) := by decide
theorem test_decode_pop : decode opcodeMap ⟨0b01000110, 0x03, 0xFF⟩ = .instr (.pop 3) := by decide
theorem test_decode_call : decode opcodeMap ⟨0b01010000, 0x01, 0xFF⟩ = .instr (.call 1) := by decide
theorem test_decode_ret : decode opcodeMap ⟨0b00010001, 0x01, 0x02⟩ = .instr .ret := by decide
theorem test_decode_jmp : decode opcodeMap ⟨0b01010100, 0x03, 0xFF⟩ = .instr (.jmp 3) := by decide
theorem test_decode_jeq : decode opcodeMap ⟨0b01010101, 0x03, 0xFF⟩ = .instr (.jeq 3) := by decide
theorem test_decode_jne : decode opcodeMap ⟨0b01010110, 0x09, 0xFF⟩ = .instr (.jne 9) := by decide
theorem test_decode_add : decode opcodeMap ⟨0b10100000, 0x00, 0x01⟩ = .instr (.add 0 1) := by decide
theorem test_decode_sub : decode opcodeMap ⟨0b10100001, 0x04, 0x05⟩ = .instr (.sub 4 5) := by decide
theorem test_decode_mul : decode opcodeMap ⟨0b10100010, 0x06, 0x07⟩ = .instr (.mul 6 7) := by decide
theorem test_decode_div : decode opcodeMap ⟨0b10100011, 0x02, 0x03⟩ = .instr (.div 2 3) := by decide
theorem test_decode_cmp : decode opcodeMap ⟨0b10100111, 0x03, 0x00⟩ = .instr (.cmp 3 0) := by decide

/-- The LS-8 opcodes this hardware lacks: 30_encoding.md R66. -/
theorem test_decode_unknown :
    (decode opcodeMap ⟨0x00, 0, 0⟩ = .unknown 0x00) ∧ (decode opcodeMap ⟨0x83, 0, 0⟩ = .unknown 0x83) ∧
      (decode opcodeMap ⟨0x13, 0, 0⟩ = .unknown 0x13) := by decide
theorem test_decode_unsupported :
    (decode opcodeMap ⟨0xA4, 0, 0⟩ = .unsupported 0xA4) ∧ (decode opcodeMap ⟨0x65, 0, 0⟩ = .unsupported 0x65) ∧
      (decode opcodeMap ⟨0xE0, 0, 0⟩ = .unsupported 0xE0) := by decide
theorem test_decodeFront_program :
    decodeFront opcodeMap [0x47, 0x00, 0x01] = .instr (.prn 0) [0x01] ∧
      decodeFront opcodeMap [0xA2, 0x00] = .truncated [0xA2, 0x00] := by decide
theorem test_decodeTableWord :
    decodeTableWord 24 0x080082 = some (.ldi 0 8) ∧ decodeTableWord 8 0x82 = some (.ldi 0 0) ∧
      decodeTableWord 8 0x20 = none := by decide
theorem test_withFetchWord_runs :
    after (State.reset.withFetchWord 24 0x080082) (fun t => (t.reg 0, t.pc)) = some (8, 3) := by decide
theorem test_asm_text : Instr.text (.ldi 0 8) = "LDI R0 8" ∧ Instr.text (.mul 0 1) = "MUL R0 R1" := by decide

/-! ### ALU -/

/-- A-1. -/
theorem test_add_wraps :
    after (code 0 [0xA0, 0, 1] (r01 250 10)) (fun t => (t.reg 0, t.reg 1, t.pc)) = some (4, 10, 3) := by decide
/-- A-19: the second index is checked. -/
theorem test_add_bad_second_index :
    after (code 0 [0xA0, 1, 9]) (fun t => (ended t, t.pc)) = some ((.aborted, .badRegister, 9), 0) := by decide
/-- A-4, A-5. -/
theorem test_sub_borrows : after (code 0 [0xA1, 0, 1] (r01 3 5)) (fun t => t.reg 0) = some 254 := by decide
/-- A-6. -/
theorem test_sub_same_register : after (code 0 [0xA1, 1, 1] (r01 3 5)) (fun t => t.reg 1) = some 0 := by decide
/-- A-8. -/
theorem test_mul_keeps_low_byte : after (code 0 [0xA2, 0, 1] (r01 16 16)) (fun t => t.reg 0) = some 0 := by decide
/-- A-9. -/
theorem test_mul_squares : after (code 0 [0xA2, 0, 0] (r01 255 0)) (fun t => t.reg 0) = some 1 := by decide
/-- A-11. -/
theorem test_div_floors : after (code 0 [0xA3, 0, 1] (r01 7 2)) (fun t => (t.reg 0, t.pc)) = some (3, 3) := by decide
/-- A-12; A-20: the index comes before the zero test. -/
theorem test_div_errors :
    after (code 0 [0xA3, 0, 1] (r01 9 0)) (fun t => (ended t, t.reg 0, t.pc)) =
        some ((.aborted, .divideByZero, 0xA3), 9, 0) ∧
      after (code 0 [0xA3, 9, 1] (r01 9 0)) ended = some (.aborted, .badRegister, 9) := by decide
/-- A-16. -/
theorem test_cmp_unsigned_replaces_fl :
    after (code 0 [0xA7, 0, 1] ((r01 0 255).setFl 0xFF)) (fun t => (t.fl, t.reg 0)) = some (0b100, 0) := by decide
/-- A-14, A-15. -/
theorem test_cmp_greater_and_equal :
    after (code 0 [0xA7, 0, 1] (r01 9 5)) (fun t => t.fl) = some 0b010 ∧
      after (code 0 [0xA7, 0, 1] (r01 7 7)) (fun t => t.fl) = some 0b001 := by decide

/-! ### Halt, load, print, stack -/

/-- D-1. -/
theorem test_halt_keeps_pc :
    after (code 11 [0x01]) (fun t => (ended t, t.pc)) = some ((.halted, .none, 0), 11) := by decide
/-- D-2; E-12: an LDI at 253 completes. -/
theorem test_ldi_at_253 :
    after (code 253 [0x82, 0, 8]) (fun t => (t.reg 0, t.pc)) = some (8, 256) := by decide
/-- D-4. -/
theorem test_ldi_bad_index : after (code 0 [0x82, 8, 1]) ended = some (.aborted, .badRegister, 8) := by decide
/-- D-5. -/
theorem test_prn_appends :
    after (code 0 [0x47, 0] ((r01 72 0).emit 3)) (fun t => (t.out, t.pc)) = some ([3, 72], 2) := by decide
/-- D-6. -/
theorem test_prn_bad_index :
    after (code 0 [0x47, 9]) (fun t => (ended t, t.out)) = some ((.aborted, .badRegister, 9), []) := by decide
/-- D-9. -/
theorem test_push_wraps_sp :
    after (code 0 [0x45, 0] ((r01 0xAB 0).setReg 7 0)) (fun t => (t.reg 7, t.mem.read 255)) = some (255, 0xAB) := by decide
/-- D-7, its first step. -/
theorem test_push_r7_stores_decremented_sp :
    after (code 0 [0x45, 7]) (fun t => (t.reg 7, t.mem.read 0xF3)) = some (0xF3, 0xF3) := by decide
/-- D-10. -/
theorem test_pop_wraps_sp :
    after (code 0 [0x46, 1] ((r01 0 0).setReg 7 255 |>.setByte 255 0xAB)) (fun t => (t.reg 1, t.reg 7)) =
      some (0xAB, 0) := by decide
/-- D-11. -/
theorem test_pop_r7 :
    after (code 0 [0x46, 7] ((r01 0 0).setReg 7 0xF3 |>.setByte 0xF3 0x10)) (fun t => t.reg 7) = some 0x11 := by decide

/-! ### Control transfer -/

/-- C-1. -/
theorem test_call_pushes_return_address :
    after (code 6 [0x50, 1] (r01 0 13)) (fun t => (t.mem.read 0xF3, t.reg 7, t.pc)) = some (8, 0xF3, 13) := by decide
/-- C-2. -/
theorem test_call_r7 :
    after (code 0 [0x50, 7]) (fun t => (t.mem.read 0xF3, t.reg 7, t.pc)) = some (2, 0xF3, 0xF3) := by decide
/-- C-3. -/
theorem test_ret_pops :
    after (code 0 [0x11] ((r01 0 0).setReg 7 0xF3 |>.setByte 0xF3 8)) (fun t => (t.pc, t.reg 7)) =
      some (8, 0xF4) := by decide
/-- C-4. -/
theorem test_jmp : after (code 0 [0x54, 0] (r01 12 0)) (fun t => t.pc) = some 12 := by decide
/-- C-5, C-9: not taken, the index is not checked. -/
theorem test_jeq_taken_and_unused_index :
    after (code 20 [0x55, 0] ((r01 12 0).setFl 0b001)) (fun t => t.pc) = some 12 ∧
      after (code 20 [0x55, 9] ((r01 12 0).setFl 0b010)) (fun t => (ended t, t.pc)) =
        some ((.running, .none, 0), 22) := by decide
/-- C-10. -/
theorem test_jeq_taken_bad_index :
    after (code 20 [0x55, 9] ((r01 12 0).setFl 0b001)) ended = some (.aborted, .badRegister, 9) := by decide
/-- C-7, C-8. -/
theorem test_jne_taken_and_not :
    after (code 20 [0x56, 0] ((r01 12 0).setFl 0b100)) (fun t => t.pc) = some 12 ∧
      after (code 20 [0x56, 0] ((r01 12 0).setFl 0b001)) (fun t => t.pc) = some 22 := by decide

/-! ### Fetch, decode, errors, ports -/

/-- E-9, E-10, E-11. -/
theorem test_fetch_past_the_end :
    after (code 254 [0x01, 0]) (fun t => (ended t, t.pc)) = some ((.aborted, .boundsFault, 256), 254) ∧
      after (code 255 [0x01]) ended = some (.aborted, .boundsFault, 256) ∧
      after (code 256 []) ended = some (.aborted, .boundsFault, 256) := by decide
/-- E-13: bounds come before decode. -/
theorem test_bounds_before_decode : after (code 255 [0x02]) ended = some (.aborted, .boundsFault, 256) := by decide
/-- E-2, E-3, E-8; E-4, E-6, E-7. -/
theorem test_illegal_opcodes :
    after (code 0 [0x02]) ended = some (.halted, .unknownInstruction, 2) ∧
      after (code 0 [0x83]) ended = some (.halted, .unknownInstruction, 0x83) ∧
      after (code 0 [0xA4]) ended = some (.aborted, .unsupportedOperation, 0xA4) ∧
      after (code 0 [0xFF]) ended = some (.aborted, .unsupportedOperation, 0xFF) := by decide
/-- R80: no step in a terminal state. -/
theorem test_no_step_when_halted : after (State.reset.halt) ended = none := by decide
/-- R175. -/
theorem test_out_port :
    (code 0 [0x47, 0] (r01 72 0)).outPort = some 72 ∧ (code 0 [0x54, 0] (r01 72 0)).outPort = none := by decide
/-- R171: decimal, one per line. -/
theorem test_host_text : ((State.reset.emit 72).emit 5).hostText = "72\n5\n" := by decide

/-! ### Witnesses: concrete states and operands that meet the hypotheses of each obligation -/

theorem witness_launch_lengths :
    (List.replicate 256 (1 : Byte)).length ≤ 256 ∧ 256 < (List.replicate 257 (1 : Byte)).length := by
  rw [List.length_replicate, List.length_replicate]
  decide

theorem witness_launch_next : ∃ t, launchWith OpenParams.zero [0x01] = .next t := ⟨_, rfl⟩

/-- EveryStepKeepsTheInvariant: the reset state meets the invariant and steps. -/
theorem witness_inv_and_step : State.reset.Inv ∧ ∃ t, step State.reset = .next t :=
  ⟨⟨by decide, by decide, by decide, rfl⟩, _, rfl⟩

theorem witness_valid_map : opcodeMap.Valid := opcodeMap_valid

theorem witness_decodeFront : decodeFront opcodeMap [0x82, 0, 8, 1] = .instr (.ldi 0 8) [1] := by decide

/-- AStepIsDefinedExactlyWhileRunning, ATerminalStateIsForever. -/
theorem witness_running_and_not : State.reset.status = .running ∧ State.reset.halt.Ended := by decide

/-- AStepRunsTheDecodedInstruction, one state for each of its clauses, at the last pc that fits. -/
theorem witness_decoded :
    (∀ s ∈ [code 253 [0x11], code 253 [0x20], code 253 [0x02]], s.status = .running ∧ s.pc + 2 ≤ 255) ∧
      decode opcodeMap (code 253 [0x11]).fetched = .instr .ret ∧
      decode opcodeMap (code 253 [0x20]).fetched = .unsupported 0x20 ∧
      decode opcodeMap (code 253 [0x02]).fetched = .unknown 0x02 := by decide

theorem witness_encoded_bytes :
    (code 253 [0x47, 3]).status = .running ∧ (code 253 [0x47, 3]).pc + 2 ≤ 255 ∧
      ∀ (k : Nat) (h : k < (encode opcodeMap (.prn 3)).length),
        (code 253 [0x47, 3]).mem.read ((code 253 [0x47, 3]).pc + k) = (encode opcodeMap (.prn 3))[k] := by decide

/-- FetchChecksItsThreeAddressesInOrder, each clause at its boundary. -/
theorem witness_fetch_bounds :
    255 < (code 256 []).pc ∧
      ((code 255 []).pc ≤ 255 ∧ 255 < (code 255 []).pc + 1) ∧
      ((code 254 []).pc + 1 ≤ 255 ∧ 255 < (code 254 []).pc + 2) ∧
      (code 253 []).pc + 2 ≤ 255 := by decide

/-- UnknownInstructionChangesNothingElse and IllegalOpcodesFailByBitFive (unknown). -/
theorem witness_unknown :
    (code 253 [0x02]).status = .running ∧ (code 253 [0x02]).pc + 2 ≤ 255 ∧
      ((code 253 [0x02]).mem.read 253).getLsbD 5 = false ∧
      ∀ m : Mnemonic, opcodeMap m ≠ (code 253 [0x02]).mem.read 253 :=
  ⟨by decide, by decide, by decide, fun m => by cases m <;> decide⟩

/-- IllegalOpcodesFailByBitFive (unsupported). -/
theorem witness_unsupported :
    (code 253 [0x20]).status = .running ∧ (code 253 [0x20]).pc + 2 ≤ 255 ∧
      ((code 253 [0x20]).mem.read 253).getLsbD 5 = true ∧
      ∀ m : Mnemonic, opcodeMap m ≠ (code 253 [0x20]).mem.read 253 :=
  ⟨by decide, by decide, by decide, fun m => by cases m <;> decide⟩

/-- AStepReportsTheFirstErrorThatApplies: an error of each kind, in the order of R165, and none. -/
theorem witness_first_error :
    (code 255 [0x02]).firstError = some (.boundsFault, 256) ∧
      (code 0 [0xE0]).firstError = some (.unsupportedOperation, 0xE0) ∧
      (code 0 [0x02]).firstError = some (.unknownInstruction, 2) ∧
      (code 0 [0xA3, 9, 1]).firstError = some (.badRegister, 9) ∧
      (code 0 [0xA3, 0, 1]).firstError = some (.divideByZero, 0xA3) ∧
      (code 0 [0x55, 9]).firstError = none := by decide

/-- ErrorsArePrecise. -/
theorem witness_error_step :
    (code 0 [0xA3, 0, 1]).status = .running ∧ ∃ t, step (code 0 [0xA3, 0, 1]) = .next t ∧
      t.status ≠ .running ∧ t.cause ≠ .none :=
  ⟨by decide, _, rfl, by decide, by decide⟩

/-- AStepThatRunsOnKeepsStatusCauseAndInfo. -/
theorem witness_step_runs_on : ∃ t, step (code 0 [0x82, 0, 8]) = .next t ∧ t.status = .running :=
  ⟨_, rfl, by decide⟩

/-- OnlyHaltEndsARunCleanly: a clean end and one that is not. -/
theorem witness_clean_end :
    (∃ t, step (code 253 [0x01]) = .next t ∧ t.CleanEnd) ∧ ∃ t, step (code 0 [0x02]) = .next t ∧ ¬ t.CleanEnd :=
  ⟨⟨_, rfl, by decide⟩, _, rfl, by decide⟩

/-- OnlyTheNamedRegistersChange. -/
theorem witness_register_changes : ∃ t, exec (.ldi 7 0) State.reset = .next t ∧ t.reg 7 ≠ State.reset.reg 7 :=
  ⟨_, rfl, by decide⟩

/-- FlagsAreSetByCmpAndOnlyEqualIsRead: its clauses' hypotheses. -/
theorem witness_flags :
    (∃ t, exec (.cmp 7 0) State.reset = .next t ∧ t.fl ≠ State.reset.fl) ∧
      ((7 : Byte).toNat < 8 ∧ (0 : Byte).toNat < 8) ∧
      ((0xFE : Byte).getLsbD 0 = State.reset.fl.getLsbD 0 ∧ ∃ t, exec (.jne 7) State.reset = .next t) ∧
      (∀ a, Instr.ret ≠ .jeq a ∧ Instr.ret ≠ .jne a) ∧ ∃ t, exec .ret State.reset = .next t :=
  ⟨⟨_, rfl, by decide⟩, by decide, ⟨by decide, _, rfl⟩, by simp, _, rfl⟩

/-- OnlyPushAndCallWriteMemory. -/
theorem witness_memory_changes :
    ∃ t, exec (.push 7) State.reset = .next t ∧ t.mem.read 0xF3 ≠ State.reset.mem.read 0xF3 :=
  ⟨_, rfl, by decide⟩

/-- AStepReadsOnlyItsFetchAndTheStackTop: another memory that agrees at the four addresses. -/
theorem witness_other_memory :
    (Memory.read [(9, 1)] State.reset.pc = State.reset.mem.read State.reset.pc) ∧
      (Memory.read [(9, 1)] (State.reset.pc + 1) = State.reset.mem.read (State.reset.pc + 1)) ∧
      (Memory.read [(9, 1)] (State.reset.pc + 2) = State.reset.mem.read (State.reset.pc + 2)) ∧
      (Memory.read [(9, 1)] State.reset.stackTop = State.reset.mem.read State.reset.stackTop) ∧
      ∃ t, step State.reset = .next t :=
  ⟨by decide, by decide, by decide, by decide, _, rfl⟩

/-- OutputIsOnlyAppendedAndNeverRead. -/
theorem witness_prn_next : ∃ t, exec (.prn 7) State.reset = .next t := ⟨_, rfl⟩

/-- ThePortsCarryWhatTheStepDid: its second clause's hypothesis is `witness_inv_and_step`; its first clause, both ways. -/
theorem witness_ports :
    (code 253 [0x47, 7]).outPort = some 0xF4 ∧ (code 253 [0x47, 8]).outPort = none := by decide

/-- The index bytes at their boundaries: 7 names a register, 8 names none (every statement about one instruction with a
register operand). -/
theorem witness_register_index : (7 : Byte).toNat < 8 ∧ 8 ≤ (8 : Byte).toNat := by decide

/-- PUSH, CALL and the PUSH/POP law: a canonical memory, the last pc that fits, R7 and another register. -/
theorem witness_stack :
    (code 253 [0x50, 7]).mem.wf = true ∧ (code 253 [0x50, 7]).pc + 2 ≤ 255 ∧
      (7 : Byte).toNat < 8 ∧ (6 : Byte).toNat < 8 ∧ (6 : Byte) ≠ 7 := by decide

/-- A state about to CALL R1 at 6. -/
def caller : State := code 6 [0x50, 1] (r01 0 13)

/-- The state after that CALL, about to RET at 13. -/
def callee : State := (caller.decSp.setByte 0xF3 8).loadFrom 13 [0x11] |>.setPc 13

/-- RetReturnsBehindTheMatchingCall. -/
theorem witness_call_ret :
    caller.mem.wf = true ∧ caller.status = .running ∧ caller.pc + 2 ≤ 255 ∧
      decode opcodeMap caller.fetched = .instr (.call 1) ∧ (1 : Byte).toNat < 8 ∧
      (∃ s1, step caller = .next s1 ∧ callee.stackTop = s1.stackTop ∧
        callee.mem.read s1.stackTop = s1.mem.read s1.stackTop) ∧
      callee.status = .running ∧ callee.pc + 2 ≤ 255 ∧ decode opcodeMap callee.fetched = .instr .ret :=
  ⟨by decide, by decide, by decide, by decide, by decide, ⟨_, rfl, by decide, by decide⟩, by decide, by decide, by decide⟩

/-- JEQ and JNE: Equal set and clear. -/
theorem witness_equal_flag :
    (State.reset.setFl 0b001).fl.getLsbD 0 = true ∧ (State.reset.setFl 0b110).fl.getLsbD 0 = false := by decide

/-- AStoreOverItsOwnOperandsDoesNotChangeThem: PUSH at pc 20 over pc+1, CALL over pc+2. -/
theorem witness_latch :
    ((code 20 [0x45, 2] (State.reset.setReg 7 22)).Inv ∧
      (code 20 [0x45, 2] (State.reset.setReg 7 22)).status = .running ∧
      (code 20 [0x45, 2] (State.reset.setReg 7 22)).decSp.stackTop = 20 + 1 ∧
      decode opcodeMap (code 20 [0x45, 2] (State.reset.setReg 7 22)).fetched = .instr (.push 2)) ∧
    ((code 20 [0x50, 2] (State.reset.setReg 7 23)).Inv ∧
      (code 20 [0x50, 2] (State.reset.setReg 7 23)).status = .running ∧
      (code 20 [0x50, 2] (State.reset.setReg 7 23)).decSp.stackTop = 20 + 2 ∧
      decode opcodeMap (code 20 [0x50, 2] (State.reset.setReg 7 23)).fetched = .instr (.call 2)) :=
  ⟨⟨⟨by decide, by decide, by decide, rfl⟩, by decide, by decide, by decide⟩,
    ⟨⟨by decide, by decide, by decide, rfl⟩, by decide, by decide, by decide⟩⟩

/-- EveryAluInstructionChecksAThenB and DivWritesTheFloorOrRaisesDivideByZero: a divisor of 0 and one that is not. -/
theorem witness_divisor : State.reset.reg 0 = 0 ∧ State.reset.reg 7 ≠ 0 := by decide

/-- CmpWritesAllOfTheFlags: less, greater and equal, at the ends of the unsigned range. -/
theorem witness_compare :
    ((r01 255 0).reg 1).toNat < ((r01 255 0).reg 0).toNat ∧ ((r01 0 255).reg 0).toNat < ((r01 0 255).reg 1).toNat ∧
      ((r01 255 255).reg 0).toNat = ((r01 255 255).reg 1).toNat := by decide

end Sys2Proof.Tests
end

/-! ## The flag register

Who writes it, what CMP leaves in it, and who reads it (spec/10_state.md R26, 41_alu.md R108). -/

namespace Sys2Proof.Machine

/-! ### Who writes fl -/

/-- Every instruction but CMP leaves fl alone. -/
theorem exec_fl_eq_or_cmp {i : Instr} {s t : State} (h : exec i s = .next t) :
    t.fl = s.fl ∨ ∃ a b, i = .cmp a b := by
  obtain ⟨u, hu, hcases⟩ := exec_cases i s
  obtain rfl : u = t := Host.Outcome.next.inj (hu.symm.trans h)
  rcases hcases with ⟨_, _, _, rfl⟩ | rfl | ⟨_, rfl⟩ | ⟨_, _, _, _, rfl⟩ | ⟨_, _, _, rfl⟩ | ⟨_, _, _, rfl⟩ |
    ⟨_, _, _, rfl⟩ | ⟨_, _, _, rfl⟩ | ⟨_, rfl⟩ | ⟨_, _, _, rfl⟩ | ⟨_, _, rfl⟩ | ⟨a, b, _, _, hi, _⟩
  any_goals exact .inl rfl
  exact .inr ⟨a, b, hi⟩

/-! ### What CMP leaves in fl -/

/-- The three outcomes of an unsigned comparison, each with the whole flag register it leaves. -/
theorem compareFlags_cases (x y : Byte) :
    (x = y ∧ compareFlags x y = 0b001) ∨ (y.toNat < x.toNat ∧ compareFlags x y = 0b010) ∨
      (x.toNat < y.toNat ∧ compareFlags x y = 0b100) := by
  unfold compareFlags
  split
  · exact .inl ⟨by assumption, rfl⟩
  · split
    · exact .inr (.inl ⟨by assumption, rfl⟩)
    · have hne : x.toNat ≠ y.toNat := fun h => absurd (BitVec.eq_of_toNat_eq h) (by assumption)
      exact .inr (.inr ⟨by omega, rfl⟩)

/-- Bit 0, E. -/
theorem flagE_compareFlags (x y : Byte) : flagE (compareFlags x y) = true ↔ x = y := by
  rcases compareFlags_cases x y with ⟨rfl, h⟩ | ⟨hlt, h⟩ | ⟨hlt, h⟩ <;> rw [h]
  · exact iff_of_true rfl rfl
  · exact iff_of_false (by decide) (by rintro rfl; omega)
  · exact iff_of_false (by decide) (by rintro rfl; omega)

/-- Bit 1, G. -/
theorem flagG_compareFlags (x y : Byte) : flagG (compareFlags x y) = true ↔ y.toNat < x.toNat := by
  rcases compareFlags_cases x y with ⟨rfl, h⟩ | ⟨hlt, h⟩ | ⟨hlt, h⟩ <;> rw [h]
  · exact iff_of_false (by decide) (by omega)
  · exact iff_of_true rfl hlt
  · exact iff_of_false (by decide) (by omega)

/-- Bit 2, L. -/
theorem flagL_compareFlags (x y : Byte) : flagL (compareFlags x y) = true ↔ x.toNat < y.toNat := by
  rcases compareFlags_cases x y with ⟨rfl, h⟩ | ⟨hlt, h⟩ | ⟨hlt, h⟩ <;> rw [h]
  · exact iff_of_false (by decide) (by omega)
  · exact iff_of_false (by decide) (by omega)
  · exact iff_of_true rfl hlt

/-- CMP clears bits 7:3 (the spec's D24). -/
theorem getLsbD_compareFlags_of_ge (x y : Byte) {k : Nat} (hk : 3 ≤ k) : (compareFlags x y).getLsbD k = false := by
  have hlt : (compareFlags x y).toNat < 2 ^ 3 := by
    rcases compareFlags_cases x y with ⟨_, h⟩ | ⟨_, h⟩ | ⟨_, h⟩ <;> rw [h] <;> decide
  exact Nat.testBit_lt_two_pow (hlt.trans_le (Nat.pow_le_pow_right (by decide) hk))

/-! ### Who reads fl -/

/-- Two answers that are next states and differ at most in fl. -/
def SameNextButFl (r r' : Result) : Prop :=
  ∃ t w, r = .next t ∧ r' = .next (t.setFl w)

theorem withReg_sameNextButFl {s : State} {v a : Byte} {next next' : Fin 8 → Result}
    (h : ∀ r, SameNextButFl (next r) (next' r)) :
    SameNextButFl (withReg s a next) (withReg (s.setFl v) a next') := by
  rcases Nat.lt_or_ge a.toNat 8 with ha | ha
  · rw [withReg_of_lt ha, withReg_of_lt ha]
    exact h _
  · rw [withReg_of_ge ha, withReg_of_ge ha]
    exact ⟨_, v, rfl, rfl⟩

theorem withRegs_sameNextButFl {s : State} {v a b : Byte} {next next' : Fin 8 → Fin 8 → Result}
    (h : ∀ ra rb, SameNextButFl (next ra rb) (next' ra rb)) :
    SameNextButFl (withRegs s a b next) (withRegs (s.setFl v) a b next') :=
  withReg_sameNextButFl fun ra => withReg_sameNextButFl fun rb => h ra rb

theorem jumpTo_sameNextButFl (s : State) (v a : Byte) : SameNextButFl (jumpTo a s) (jumpTo a (s.setFl v)) :=
  withReg_sameNextButFl fun _ => ⟨_, v, rfl, rfl⟩

/-- A conditional jump reads fl only through its condition. -/
theorem branchIf_sameNextButFl (taken : Bool) (s : State) (v a : Byte) :
    SameNextButFl (branchIf taken a s) (branchIf taken a (s.setFl v)) := by
  cases taken with
  | false => exact ⟨_, v, rfl, rfl⟩
  | true => exact jumpTo_sameNextButFl s v a

theorem aluWrite_sameNextButFl (f : Byte → Byte → Byte) (s : State) (v a b : Byte) :
    SameNextButFl (aluWrite f a b s) (aluWrite f a b (s.setFl v)) :=
  withRegs_sameNextButFl fun _ _ => ⟨_, v, rfl, rfl⟩

/-- Replacing fl changes nothing of the next state but fl, as long as a JEQ or a JNE still sees the same Equal bit. -/
theorem exec_sameNextButFl (i : Instr) (s : State) (v : Byte)
    (hread : flagE v = flagE s.fl ∨ ∀ a, i ≠ .jeq a ∧ i ≠ .jne a) :
    SameNextButFl (exec i s) (exec i (s.setFl v)) := by
  cases i with
  | halt => exact ⟨_, v, rfl, rfl⟩
  | ldi a imm => exact withReg_sameNextButFl fun _ => ⟨_, v, rfl, rfl⟩
  | prn a => exact withReg_sameNextButFl fun _ => ⟨_, v, rfl, rfl⟩
  | push a => exact withReg_sameNextButFl fun _ => ⟨_, v, push_eq .., push_eq ..⟩
  | pop a => exact withReg_sameNextButFl fun _ => ⟨_, v, pop_eq .., pop_eq ..⟩
  | call a => exact withReg_sameNextButFl fun _ => ⟨_, v, push_eq .., push_eq ..⟩
  | ret => exact ⟨_, v, exec_ret s, exec_ret _⟩
  | jmp a => exact jumpTo_sameNextButFl s v a
  | jeq a =>
    have hE : flagE v = flagE s.fl := hread.resolve_right fun h => (h a).1 rfl
    change SameNextButFl (branchIf (flagE s.fl) a s) (branchIf (flagE v) a (s.setFl v))
    rw [hE]
    exact branchIf_sameNextButFl _ s v a
  | jne a =>
    have hE : flagE v = flagE s.fl := hread.resolve_right fun h => (h a).2 rfl
    change SameNextButFl (branchIf (!flagE s.fl) a s) (branchIf (!flagE v) a (s.setFl v))
    rw [hE]
    exact branchIf_sameNextButFl _ s v a
  | add a b => exact aluWrite_sameNextButFl aluAdd s v a b
  | sub a b => exact aluWrite_sameNextButFl aluSub s v a b
  | mul a b => exact aluWrite_sameNextButFl aluMul s v a b
  | div a b =>
    refine withRegs_sameNextButFl fun ra rb => ?_
    rw [State.reg_setFl]
    split
    · exact ⟨_, v, rfl, rfl⟩
    · exact ⟨_, v, rfl, rfl⟩
  | cmp a b => exact withRegs_sameNextButFl fun ra rb => ⟨_, compareFlags (s.reg ra) (s.reg rb), rfl, rfl⟩

/-! ### The statement -/

/-- Settles O21: the frame of fl over every instruction, the bits of CMP by the three outcomes of the comparison, and
noninterference through the shared operations, of which only the condition of JEQ and JNE looks at fl. -/
theorem flagsAreSetByCmpAndOnlyEqualIsRead : Obligations.FlagsAreSetByCmpAndOnlyEqualIsRead := by
  refine ⟨fun i s t h hne => (exec_fl_eq_or_cmp h).resolve_left hne, fun a b s ha hb => ?_,
    fun i s t v hread h => ?_⟩
  · exact ⟨_, exec_cmp ha hb, flagE_compareFlags _ _, flagG_compareFlags _ _, flagL_compareFlags _ _,
      fun k hk => getLsbD_compareFlags_of_ge _ _ hk⟩
  · obtain ⟨u, w, hu, hw⟩ := exec_sameNextButFl i s v hread
    obtain rfl : u = t := Host.Outcome.next.inj (hu.symm.trans h)
    exact ⟨w, hw⟩

end Sys2Proof.Machine

/-! ## Illegal opcodes

The bytes no mnemonic has: how decode rejects them, what a step does with one, and how many there are (spec/30_encoding.md
R66). -/

namespace Sys2Proof

/-- A byte that no mnemonic has is rejected whatever the two bytes after it, and bit 5 says how. -/
theorem decode_illegal {om : OpcodeMap} {ir : Byte} (hill : ∀ m, om m ≠ ir) (a b : Byte) :
    decode om ⟨ir, a, b⟩ = if ir.getLsbD 5 then .unsupported ir else .unknown ir := by
  rcases decode_cases om ⟨ir, a, b⟩ with ⟨m, hm, _⟩ | ⟨h5, _, hd⟩ | ⟨h5, _, hd⟩
  · exact absurd hm (hill m)
  · exact hd.trans (if_pos h5).symm
  · exact hd.trans (if_neg (Bool.eq_false_iff.1 h5)).symm

/-- Of the 128 bytes with bit 5 set, all but the 5 ALU opcodes. -/
theorem countP_classify_unsupported :
    ((List.range 256).countP fun n => classify opcodeMap (BitVec.ofNat 8 n) = .unsupported) = 123 := by
  decide +kernel

/-- Of the 128 bytes with bit 5 clear, all but the 10 table opcodes. -/
theorem countP_classify_unknown :
    ((List.range 256).countP fun n => classify opcodeMap (BitVec.ofNat 8 n) = .unknown) = 118 := by
  decide +kernel

end Sys2Proof

namespace Sys2Proof.Machine

/-- A running step whose three fetch addresses exist routes what decode gives of the bytes there (R81, R82). -/
theorem step_of_fetch_fits {s : State} (hrun : s.status = .running) (hpc : s.pc + 2 ≤ 255) :
    step s = route exec (decode opcodeMap s.fetched) s :=
  (step_running hrun).trans (fetch_of_le hpc)

/-- Settles O15: the fetch fits, so the step routes the rejection that bit 5 selects; the two counts are over all 256
bytes. -/
theorem illegalOpcodesFailByBitFive : Obligations.IllegalOpcodesFailByBitFive := by
  refine ⟨fun s hrun hpc hill => ?_, countP_classify_unsupported, countP_classify_unknown, by decide⟩
  rw [step_of_fetch_fits hrun hpc, State.fetched, decode_illegal hill]
  cases (s.mem.read s.pc).getLsbD 5 with
  | true => rfl
  | false => rfl

end Sys2Proof.Machine

/-! ## The engine cycle

Where a step is defined, what it fetches, and what it routes (spec/40_engine_cycle.md R80, R81, R82). -/

namespace Sys2Proof.Machine

/-! ### Where a step is defined -/

/-- A launch that starts a run answers the reset state with the image loaded (R182). -/
theorem eq_loadFrom_of_launchWith {p : OpenParams} {image : List Byte} {t : State}
    (h : launchWith p image = .next t) : t = (State.resetWith p).loadFrom loadBase image := by
  unfold launchWith at h
  split at h
  · nomatch h
  · exact (Host.Outcome.next.inj h).symm

/-- Routing always answers a next state: a rejection is an error, and an error is a next state (R162). -/
theorem route_next (d : Decoded) (s : State) : ∃ t, route exec d s = .next t := by
  cases d with
  | instr i =>
    obtain ⟨t, ht, _⟩ := exec_cases i s
    exact ⟨t, ht⟩
  | unsupported ir => exact ⟨_, rfl⟩
  | unknown ir => exact ⟨_, rfl⟩

theorem step_running_next {s : State} (hrun : s.status = .running) : ∃ t, step s = .next t := by
  rcases step_cases hrun with ⟨_, hraise⟩ | ⟨_, hroute⟩
  · exact ⟨_, hraise⟩
  · rw [hroute]
    exact route_next _ s

/-- Settles O9: loading writes neither status nor pc of the reset state; a running step raises or routes, and both answer a
next state; any other step is the fault `notRunning`. -/
theorem aStepIsDefinedExactlyWhileRunning : Obligations.AStepIsDefinedExactlyWhileRunning := by
  refine ⟨fun p image t h => ?_, fun s hrun => step_running_next hrun, fun s hended t h => ?_⟩
  · rw [eq_loadFrom_of_launchWith h]
    obtain ⟨_, hpc, _, hstatus, _⟩ := State.loadFrom_fields image (State.resetWith p) loadBase
    exact ⟨hstatus, hpc⟩
  · rw [step_not_running hended] at h
    nomatch h

/-! ### What a step routes -/

/-- Settles O11: the fetch fits, so the step routes what decode gave, and each outcome of decode has its own route. -/
theorem aStepRunsTheDecodedInstruction : Obligations.AStepRunsTheDecodedInstruction := by
  intro s hrun hpc
  rw [step_of_fetch_fits hrun hpc]
  refine ⟨fun i hd => ?_, fun ir hd => ?_, fun ir hd => ?_⟩ <;> rw [hd] <;> rfl

/-! ### What a step fetches -/

/-- A running step whose fetch does not fit raises BoundsFault with the first of its addresses above 255. -/
theorem step_of_fetch_past_end {s : State} {addr : Nat} (hrun : s.status = .running) (hpc : 253 < s.pc)
    (haddr : max 256 s.pc = addr) : step s = .next (raised s .aborted .boundsFault addr) :=
  haddr ▸ (step_running hrun).trans (fetch_of_gt hpc)

/-- Settles O13: past 253 the fault records the larger of 256 and pc, which is the address each clause names; up to 253 the
fetch fits. -/
theorem fetchChecksItsThreeAddressesInOrder : Obligations.FetchChecksItsThreeAddressesInOrder := by
  intro s hrun
  refine ⟨fun h0 => ?_, fun h0 h1 => ?_, fun h1 h2 => ?_, fun h2 => step_of_fetch_fits hrun h2⟩
  · exact step_of_fetch_past_end hrun (by omega) (by omega)
  · exact step_of_fetch_past_end hrun (by omega) (by omega)
  · exact step_of_fetch_past_end hrun (by omega) (by omega)

end Sys2Proof.Machine

/-! ## The ALU

The index checks that ADD, SUB, MUL, DIV and CMP share, what each computes, and what it leaves unchanged (spec/41_alu.md R100
to R108). -/

namespace Sys2Proof.Machine

/-! ### The index checks (R101) -/

/-- The instruction is one of the five of the ALU, with `a` as op_a and `b` as op_b. -/
def IsAluOn (a b : Byte) (i : Instr) : Prop :=
  i = .add a b ∨ i = .sub a b ∨ i = .mul a b ∨ i = .div a b ∨ i = .cmp a b

/-- Every ALU instruction begins with `check_ab(a, b)`. -/
theorem exec_eq_withRegs_of_alu {a b : Byte} {i : Instr} (hi : IsAluOn a b i) (s : State) :
    ∃ next, exec i s = withRegs s a b next := by
  rcases hi with rfl | rfl | rfl | rfl | rfl
  all_goals exact ⟨_, rfl⟩

theorem exec_alu_of_ge_left {a b : Byte} {i : Instr} (hi : IsAluOn a b i) (s : State) (ha : 8 ≤ a.toNat) :
    exec i s = .next (raised s .aborted .badRegister a.toNat) := by
  obtain ⟨next, hnext⟩ := exec_eq_withRegs_of_alu hi s
  exact hnext.trans (withRegs_of_ge_left ha)

theorem exec_alu_of_ge_right {a b : Byte} {i : Instr} (hi : IsAluOn a b i) (s : State) (ha : a.toNat < 8)
    (hb : 8 ≤ b.toNat) : exec i s = .next (raised s .aborted .badRegister b.toNat) := by
  obtain ⟨next, hnext⟩ := exec_eq_withRegs_of_alu hi s
  exact hnext.trans (withRegs_of_ge_right ha hb)

/-! ### The results as numbers (R100) -/

theorem toNat_aluAdd (x y : Byte) : (aluAdd x y).toNat = (x.toNat + y.toNat) % 256 :=
  BitVec.toNat_ofNat _ _

/-- The difference is reduced as an integer, so a borrow wraps. -/
theorem toNat_aluSub (x y : Byte) : ((aluSub x y).toNat : Int) = (x.toNat - y.toNat) % 256 := by
  rw [aluSub, BitVec.toNat_ofInt]
  exact Int.toNat_of_nonneg (Int.emod_nonneg _ (by decide))

theorem toNat_aluMul (x y : Byte) : (aluMul x y).toNat = x.toNat * y.toNat % 256 :=
  BitVec.toNat_ofNat _ _

/-- A quotient of bytes is a byte, so DIV reduces nothing (R105). -/
theorem toNat_aluDiv (x y : Byte) : (aluDiv x y).toNat = x.toNat / y.toNat := by
  have hlt : x.toNat / y.toNat < 2 ^ 8 := (Nat.div_le_self _ _).trans_lt x.isLt
  exact (BitVec.toNat_ofNat _ _).trans (Nat.mod_eq_of_lt hlt)

theorem compareFlags_of_toNat_eq {x y : Byte} (h : x.toNat = y.toNat) : compareFlags x y = 0b00000001 :=
  if_pos (BitVec.eq_of_toNat_eq h)

theorem compareFlags_of_toNat_gt {x y : Byte} (h : y.toNat < x.toNat) : compareFlags x y = 0b00000010 :=
  (if_neg (by rintro rfl; omega)).trans (if_pos h)

theorem compareFlags_of_toNat_lt {x y : Byte} (h : x.toNat < y.toNat) : compareFlags x y = 0b00000100 :=
  (if_neg (by rintro rfl; omega)).trans (if_neg (by omega))

/-! ### Completion -/

/-- A completed register write reads back, and writes nothing but the register and pc. -/
theorem State.setReg_advance_frame (s : State) (r : Fin 8) (v : Byte) (n : Nat) :
    SameRegsBut r s ((s.setReg r v).advance n) ∧ ((s.setReg r v).advance n).pc = s.pc + n ∧
      ((s.setReg r v).advance n).fl = s.fl ∧ SameMem s ((s.setReg r v).advance n) ∧
      SameRun s ((s.setReg r v).advance n) ∧ ((s.setReg r v).advance n).out = s.out := by
  refine ⟨fun q hq => ?_, rfl, rfl, fun _ => rfl, ⟨rfl, rfl, rfl⟩, rfl⟩
  simp [hq]

theorem State.reg_setReg_advance_same (s : State) (r : Fin 8) (v : Byte) (n : Nat) :
    ((s.setReg r v).advance n).reg r = v := by
  simp

/-- The operation of each ALU instruction. -/
def IsAluOp (a b : Byte) (i : Instr) (f : Byte → Byte → Byte) : Prop :=
  f = aluAdd ∧ i = .add a b ∨ f = aluSub ∧ i = .sub a b ∨ f = aluMul ∧ i = .mul a b ∨
    f = aluDiv ∧ i = .div a b ∨ f = compareFlags ∧ i = .cmp a b

/-- An ALU instruction that raises no error writes its own operation on the old values of both registers, CMP to fl and the
others to register a, and advances pc by 3. -/
theorem exec_alu_of_lt {a b : Byte} {i : Instr} {s : State} (hi : IsAluOn a b i) (ha : a.toNat < 8) (hb : b.toNat < 8)
    (hdiv : s.reg ⟨b.toNat, hb⟩ ≠ 0 ∨ i ≠ .div a b) :
    ∃ f, IsAluOp a b i f ∧ exec i s = .next
      ((if i = .cmp a b then s.setFl (f (s.reg ⟨a.toNat, ha⟩) (s.reg ⟨b.toNat, hb⟩))
        else s.setReg ⟨a.toNat, ha⟩ (f (s.reg ⟨a.toNat, ha⟩) (s.reg ⟨b.toNat, hb⟩))).advance 3) := by
  rcases hi with rfl | rfl | rfl | rfl | rfl
  · exact ⟨aluAdd, by simp [IsAluOp], exec_add ha hb⟩
  · exact ⟨aluSub, by simp [IsAluOp], exec_sub ha hb⟩
  · exact ⟨aluMul, by simp [IsAluOp], exec_mul ha hb⟩
  · exact ⟨aluDiv, by simp [IsAluOp], exec_div ha hb (hdiv.resolve_right (· rfl))⟩
  · refine ⟨compareFlags, by simp [IsAluOp], ?_⟩
    rw [if_pos rfl]
    exact exec_cmp ha hb

/-! ### The statements -/

/-- Settles O39: the checks are the five instructions' common beginning, and past them the answer is the instruction's own
operation written to fl or to register a. -/
theorem everyAluInstructionChecksAThenB : Obligations.EveryAluInstructionChecksAThenB := by
  intro a b s i hi
  refine ⟨exec_alu_of_ge_left hi s, exec_alu_of_ge_right hi s, fun ha hb hdiv => ?_⟩
  obtain ⟨f, hf, hexec⟩ := exec_alu_of_lt hi ha hb hdiv
  refine ⟨_, f, hf, hexec, ?_⟩
  by_cases hcmp : i = .cmp a b
  · simp [hcmp]
  · simp [hcmp]

/-- Settles O40: the sum written back reads as the sum modulo 256, and the rest is the frame of a register write. -/
theorem addWritesTheSumModulo256 : Obligations.AddWritesTheSumModulo256 := by
  intro a b s
  have hi : IsAluOn a b (.add a b) := .inl rfl
  refine ⟨rfl, exec_alu_of_ge_left hi s, exec_alu_of_ge_right hi s, fun ha hb => ?_⟩
  refine ⟨_, exec_add ha hb, ?_, State.setReg_advance_frame ..⟩
  rw [State.reg_setReg_advance_same, toNat_aluAdd]

/-- Settles O41: as for ADD, with the difference reduced as an integer. -/
theorem subWritesTheDifferenceModulo256 : Obligations.SubWritesTheDifferenceModulo256 := by
  intro a b s
  have hi : IsAluOn a b (.sub a b) := .inr (.inl rfl)
  refine ⟨rfl, exec_alu_of_ge_left hi s, exec_alu_of_ge_right hi s, fun ha hb => ?_⟩
  refine ⟨_, exec_sub ha hb, ?_, State.setReg_advance_frame ..⟩
  rw [State.reg_setReg_advance_same, toNat_aluSub]

/-- Settles O42: as for ADD, with the product. -/
theorem mulWritesTheProductModulo256 : Obligations.MulWritesTheProductModulo256 := by
  intro a b s
  have hi : IsAluOn a b (.mul a b) := .inr (.inr (.inl rfl))
  refine ⟨rfl, exec_alu_of_ge_left hi s, exec_alu_of_ge_right hi s, fun ha hb => ?_⟩
  refine ⟨_, exec_mul ha hb, ?_, State.setReg_advance_frame ..⟩
  rw [State.reg_setReg_advance_same, toNat_aluMul]

/-- Settles O43: past the index checks the divisor decides between the error and the quotient. -/
theorem divWritesTheFloorOrRaisesDivideByZero : Obligations.DivWritesTheFloorOrRaisesDivideByZero := by
  intro a b s
  have hi : IsAluOn a b (.div a b) := .inr (.inr (.inr (.inl rfl)))
  refine ⟨rfl, exec_alu_of_ge_left hi s, exec_alu_of_ge_right hi s, fun ha hb => exec_div_zero ha hb,
    fun ha hb hdiv => ?_⟩
  refine ⟨_, exec_div ha hb hdiv, ?_, State.setReg_advance_frame ..⟩
  rw [State.reg_setReg_advance_same, toNat_aluDiv]

/-- Settles O44: fl becomes the flags of the comparison, which each of its three outcomes fixes whole. -/
theorem cmpWritesAllOfTheFlags : Obligations.CmpWritesAllOfTheFlags := by
  intro a b s
  have hi : IsAluOn a b (.cmp a b) := .inr (.inr (.inr (.inr rfl)))
  refine ⟨rfl, exec_alu_of_ge_left hi s, exec_alu_of_ge_right hi s, fun ha hb => ?_⟩
  exact ⟨_, exec_cmp ha hb, compareFlags_of_toNat_eq, compareFlags_of_toNat_gt, compareFlags_of_toNat_lt,
    fun _ => rfl, rfl, fun _ => rfl, ⟨rfl, rfl, rfl⟩, rfl⟩

end Sys2Proof.Machine

/-! ## Halt, load, print

What HALT, LDI and PRN do and leave unchanged (spec/42_data_movement.md R120, R122, R123). -/

namespace Sys2Proof.Machine

/-- HALT is terminal: the state it leaves has no step (R80, R120). -/
theorem step_halt (s : State) : step s.halt = .fault .notRunning :=
  step_not_running (by simp)

/-- Settles O26: HALT writes status and cause only, and a halted state has no step. -/
theorem haltStopsAndKeepsEverythingElse : Obligations.HaltStopsAndKeepsEverythingElse := by
  intro s
  refine ⟨rfl, _, exec_halt s, rfl, rfl, rfl, fun _ => rfl, rfl, fun _ => rfl, rfl, rfl, fun u hu => ?_⟩
  rw [step_halt] at hu
  nomatch hu

/-- Settles O27: the register reads back as the immediate and the rest is the frame of a register write, so that a PRN of the
same register finds the immediate there and the old output before it. -/
theorem ldiLoadsTheImmediate : Obligations.LdiLoadsTheImmediate := by
  intro a imm s
  refine ⟨rfl, fun ha => withReg_of_ge ha, fun ha => ?_⟩
  have hread := State.reg_setReg_advance_same s ⟨a.toNat, ha⟩ imm 3
  obtain ⟨hregs, hpc, hfl, hmem, hrun, hout⟩ := State.setReg_advance_frame s ⟨a.toNat, ha⟩ imm 3
  refine ⟨_, exec_ldi ha, hread, hregs, hpc, hfl, hmem, hrun, hout, _, exec_prn ha, ?_⟩
  rw [State.out_advance, State.out_emit, hread, hout]

/-- A completed PRN appends one byte and advances pc, and writes nothing else. -/
theorem State.emit_advance_frame (s : State) (v : Byte) (n : Nat) :
    ((s.emit v).advance n).out = s.out ++ [v] ∧ ((s.emit v).advance n).pc = s.pc + n ∧
      SameRegs s ((s.emit v).advance n) ∧ ((s.emit v).advance n).fl = s.fl ∧ SameMem s ((s.emit v).advance n) ∧
      SameRun s ((s.emit v).advance n) :=
  ⟨rfl, rfl, fun _ => rfl, rfl, fun _ => rfl, rfl, rfl, rfl⟩

/-- Settles O28: an index below 8 passes the check of R23, and what follows is the frame of an emission. -/
theorem prnEmitsTheRegister : Obligations.PrnEmitsTheRegister :=
  fun _ _ => ⟨rfl, fun ha => withReg_of_ge ha, fun ha => ⟨_, exec_prn ha, State.emit_advance_frame ..⟩⟩

end Sys2Proof.Machine

/-! ## Control transfer

What RET, JMP, JEQ and JNE do to pc and leave unchanged (spec/43_control_transfer.md R142, R144, R146, R148). -/

namespace Sys2Proof.Machine

/-! ### RET -/

/-- Incrementing SP is reduced modulo 256 and writes nothing but SP. -/
theorem State.incSp_frame (s : State) :
    (s.incSp.reg spReg).toNat = ((s.reg spReg).toNat + 1) % 256 ∧ SameRegsBut spReg s s.incSp ∧
      s.incSp.fl = s.fl ∧ SameMem s s.incSp ∧ SameRun s s.incSp ∧ s.incSp.out = s.out := by
  refine ⟨?_, fun q hq => ?_, rfl, fun _ => rfl, ⟨rfl, rfl, rfl⟩, rfl⟩
  · rw [State.reg_incSp, if_pos rfl]
    exact BitVec.toNat_add ..
  · rw [State.reg_incSp, if_neg hq]

/-- Settles O33: the popped byte is pc whole, and the rest is the frame of the increment of SP. -/
theorem retPopsTheProgramCounter : Obligations.RetPopsTheProgramCounter :=
  fun s => ⟨rfl, _, exec_ret s, rfl, State.incSp_frame (s.setPc (s.mem.read s.stackTop).toNat)⟩

/-! ### JMP, and the taken path of JEQ and JNE -/

/-- Two states that differ at most in pc. -/
def SameButPc (s t : State) : Prop :=
  SameRegs s t ∧ t.fl = s.fl ∧ SameMem s t ∧ SameRun s t ∧ t.out = s.out

theorem State.sameButPc_setPc (s : State) (n : Nat) : SameButPc s (s.setPc n) :=
  ⟨fun _ => rfl, rfl, fun _ => rfl, ⟨rfl, rfl, rfl⟩, rfl⟩

theorem State.sameButPc_advance (s : State) (n : Nat) : SameButPc s (s.advance n) :=
  s.sameButPc_setPc (s.pc + n)

theorem exec_jmp_of_ge {a : Byte} (s : State) (ha : 8 ≤ a.toNat) :
    exec (.jmp a) s = .next (raised s .aborted .badRegister a.toNat) :=
  withReg_of_ge ha

/-- Settles O35: past the index check only pc is written. -/
theorem jmpGoesToTheRegistersAddress : Obligations.JmpGoesToTheRegistersAddress :=
  fun _ s => ⟨rfl, exec_jmp_of_ge s, fun ha => ⟨_, exec_jmp ha, rfl, s.sameButPc_setPc _⟩⟩

/-! ### JEQ and JNE -/

/-- Settles O36: with Equal set JEQ answers as JMP does, index check included; with Equal clear it only advances pc. -/
theorem jeqBranchesIffEqualIsSet : Obligations.JeqBranchesIffEqualIsSet := by
  intro a s
  refine ⟨rfl, fun hset ha => ?_, fun ha hset => ?_, fun hclear => ?_⟩
  · exact (exec_jeq_taken hset).trans (exec_jmp_of_ge s ha)
  · exact ⟨_, (exec_jeq_taken hset).trans (exec_jmp ha), rfl, s.sameButPc_setPc _⟩
  · exact ⟨_, exec_jeq_not_taken hclear, rfl, s.sameButPc_advance 2⟩

/-- Settles O37: as for JEQ, with Equal clear on the taken path. -/
theorem jneBranchesIffEqualIsClear : Obligations.JneBranchesIffEqualIsClear := by
  intro a s
  refine ⟨rfl, fun hclear ha => ?_, fun ha hclear => ?_, fun hset => ?_⟩
  · exact (exec_jne_taken hclear).trans (exec_jmp_of_ge s ha)
  · exact ⟨_, (exec_jne_taken hclear).trans (exec_jmp ha), rfl, s.sameButPc_setPc _⟩
  · exact ⟨_, exec_jne_not_taken hset, rfl, s.sameButPc_advance 2⟩

end Sys2Proof.Machine

/-! ## Errors

Which error a step reports, what it then leaves unchanged, and the unknown instruction (spec/60_exceptions.md R163, R164,
R165). -/

namespace Sys2Proof.Machine

/-! ### The priority of errors, over the shared operations (R165) -/

/-- The answer `r` from `s` is what the error `e` asks for: exactly that error raised from `s`, or, without one, a completion
that writes nothing of the run's status or halts. -/
def Reports (s : State) : Option (ErrorKind × Nat) → Result → Prop
  | some (k, v), r => r = .next (s.raise k v)
  | none, r => ∃ t, r = .next t ∧ (SameRun s t ∨ t = s.halt)

/-- BadRegister for the first byte that names no register, and `e` where all of them name one. -/
def badIndexOr (used : List Byte) (e : Option (ErrorKind × Nat)) : Option (ErrorKind × Nat) :=
  ((used.find? fun r => 8 ≤ r.toNat).map fun r => (.badRegister, r.toNat)).or e

theorem instrError_eq_badIndexOr (i : Instr) (s : State) :
    instrError i s = badIndexOr (usedRegs i s) (if dividesByZero i s then some (.divideByZero, 0xA3) else none) := by
  unfold instrError badIndexOr
  cases (usedRegs i s).find? fun r => 8 ≤ r.toNat with
  | none => rfl
  | some r => rfl

theorem badIndexOr_cons_of_lt {a : Byte} (ha : a.toNat < 8) (used : List Byte) (e : Option (ErrorKind × Nat)) :
    badIndexOr (a :: used) e = badIndexOr used e := by
  simp [badIndexOr, ha]

theorem badIndexOr_cons_of_ge {a : Byte} (ha : 8 ≤ a.toNat) (used : List Byte) (e : Option (ErrorKind × Nat)) :
    badIndexOr (a :: used) e = some (.badRegister, a.toNat) := by
  simp [badIndexOr, ha]

/-- Checking an index byte takes it off the front of the list of those still to check. -/
theorem withReg_reports {s : State} {a : Byte} {used : List Byte} {e : Option (ErrorKind × Nat)} {next : Fin 8 → Result}
    (h : ∀ ha : a.toNat < 8, Reports s (badIndexOr used e) (next ⟨a.toNat, ha⟩)) :
    Reports s (badIndexOr (a :: used) e) (withReg s a next) := by
  rcases Nat.lt_or_ge a.toNat 8 with ha | ha
  · rw [badIndexOr_cons_of_lt ha, withReg_of_lt ha]
    exact h ha
  · rw [badIndexOr_cons_of_ge ha, withReg_of_ge ha]
    rfl

/-- Op_a's index is checked before op_b's. -/
theorem withRegs_reports {s : State} {a b : Byte} {e : Option (ErrorKind × Nat)} {next : Fin 8 → Fin 8 → Result}
    (h : ∀ (ha : a.toNat < 8) (hb : b.toNat < 8), Reports s e (next ⟨a.toNat, ha⟩ ⟨b.toNat, hb⟩)) :
    Reports s (badIndexOr [a, b] e) (withRegs s a b next) :=
  withReg_reports fun ha => withReg_reports fun hb => h ha hb

theorem jumpTo_reports (a : Byte) (s : State) : Reports s (badIndexOr [a] none) (jumpTo a s) :=
  withReg_reports fun _ => ⟨_, rfl, .inl ⟨rfl, rfl, rfl⟩⟩

/-- A conditional jump that is not taken does not look at its index. -/
theorem branchIf_reports (taken : Bool) (a : Byte) (s : State) :
    Reports s (badIndexOr (if taken then [a] else []) none) (branchIf taken a s) := by
  cases taken with
  | false => exact ⟨_, rfl, .inl ⟨rfl, rfl, rfl⟩⟩
  | true => exact jumpTo_reports a s

theorem aluWrite_reports (f : Byte → Byte → Byte) (a b : Byte) (s : State) :
    Reports s (badIndexOr [a, b] none) (aluWrite f a b s) :=
  withRegs_reports fun _ _ => ⟨_, rfl, .inl ⟨rfl, rfl, rfl⟩⟩

theorem dividesByZero_div (a : Byte) {b : Byte} (hb : b.toNat < 8) (s : State) :
    dividesByZero (.div a b) s = decide (s.reg ⟨b.toNat, hb⟩ = 0) := by
  rw [dividesByZero, regIndex?_of_lt hb]

/-- An instruction reports the error that `instrError` names, and completes where it names none. -/
theorem exec_reports (i : Instr) (s : State) : Reports s (instrError i s) (exec i s) := by
  rw [instrError_eq_badIndexOr]
  cases i with
  | halt => exact ⟨_, rfl, .inr rfl⟩
  | ldi a imm => exact withReg_reports fun _ => ⟨_, rfl, .inl ⟨rfl, rfl, rfl⟩⟩
  | prn a => exact withReg_reports fun _ => ⟨_, rfl, .inl ⟨rfl, rfl, rfl⟩⟩
  | push a => exact withReg_reports fun _ => ⟨_, push_eq .., .inl ⟨rfl, rfl, rfl⟩⟩
  | pop a => exact withReg_reports fun _ => ⟨_, pop_eq .., .inl ⟨rfl, rfl, rfl⟩⟩
  | call a => exact withReg_reports fun _ => ⟨_, push_eq .., .inl ⟨rfl, rfl, rfl⟩⟩
  | ret => exact ⟨_, exec_ret s, .inl ⟨rfl, rfl, rfl⟩⟩
  | jmp a => exact jumpTo_reports a s
  | jeq a => exact branchIf_reports (flagE s.fl) a s
  | jne a =>
    have hused : usedRegs (.jne a) s = if !flagE s.fl then [a] else [] := by
      cases h : flagE s.fl <;> simp [usedRegs, h]
    rw [hused]
    exact branchIf_reports (!flagE s.fl) a s
  | add a b => exact aluWrite_reports aluAdd a b s
  | sub a b => exact aluWrite_reports aluSub a b s
  | mul a b => exact aluWrite_reports aluMul a b s
  | div a b =>
    refine withRegs_reports fun ha hb => ?_
    rw [dividesByZero_div a hb]
    by_cases h0 : s.reg ⟨b.toNat, hb⟩ = 0
    · rw [if_pos (decide_eq_true h0), if_pos h0]
      rfl
    · rw [if_neg (by simpa using h0), if_neg h0]
      exact ⟨_, rfl, .inl ⟨rfl, rfl, rfl⟩⟩
  | cmp a b => exact withRegs_reports fun _ _ => ⟨_, rfl, .inl ⟨rfl, rfl, rfl⟩⟩

/-! ### The priority of errors, over a step (R165) -/

/-- The first fetch address above 255 comes before everything else. -/
theorem State.firstError_of_fetch_past_end {s : State} (hpc : 253 < s.pc) :
    s.firstError = some (.boundsFault, max 256 s.pc) := by
  unfold State.firstError
  split_ifs with h0 h1 h2
  · rw [Nat.max_eq_right h0]
  · rw [show s.pc + 1 = max 256 s.pc by omega]
  · rw [show s.pc + 2 = max 256 s.pc by omega]
  · omega

/-- A running step reports the error that `firstError` names, and completes where it names none. -/
theorem step_reports {s : State} (hrun : s.status = .running) : Reports s s.firstError (step s) := by
  rcases step_cases hrun with ⟨hpc, hraise⟩ | ⟨hpc, hroute⟩
  · rw [State.firstError_of_fetch_past_end hpc, hraise]
    rfl
  · rw [hroute, State.firstError, if_neg (by omega), if_neg (by omega), if_neg (by omega)]
    cases decode opcodeMap s.fetched with
    | instr i => exact exec_reports i s
    | unsupported ir => rfl
    | unknown ir => rfl

theorem ErrorKind.status_eq_halted_iff (k : ErrorKind) : k.status = .halted ↔ k = .unknownInstruction := by
  cases k <;> decide

theorem ErrorKind.status_eq_aborted_iff (k : ErrorKind) : k.status = .aborted ↔ k ≠ .unknownInstruction := by
  cases k <;> decide

/-- Settles O16: the step raises the error `firstError` names; without one it goes on with the status it had, or halts with
cause 0. -/
theorem aStepReportsTheFirstErrorThatApplies : Obligations.AStepReportsTheFirstErrorThatApplies := by
  intro s hrun
  have hrep := step_reports hrun
  refine ⟨fun k v he => ?_, fun he => ?_⟩
  · rw [he] at hrep
    exact ⟨_, hrep, rfl, k.status_eq_halted_iff, k.status_eq_aborted_iff⟩
  · rw [he] at hrep
    obtain ⟨t, ht, ⟨hstatus, _⟩ | rfl⟩ := hrep
    · exact ⟨t, ht, .inl (hstatus.trans hrun)⟩
    · exact ⟨_, ht, .inr ⟨rfl, rfl⟩⟩

/-! ### Precision (R163) -/

/-- Settles O17: a step that reports an error is a raise from the state it began with; one that reports none goes on or halts
with cause 0. -/
theorem errorsArePrecise : Obligations.ErrorsArePrecise := by
  intro s t hrun hstep hended hcause
  have hrep := step_reports hrun
  rw [hstep] at hrep
  cases he : s.firstError with
  | some e =>
    rw [he] at hrep
    obtain rfl : t = s.raise e.1 e.2 := Host.Outcome.next.inj hrep
    exact ⟨rfl, fun _ => rfl, rfl, fun _ => rfl, rfl, rfl⟩
  | none =>
    rw [he] at hrep
    obtain ⟨u, hu, hdone⟩ := hrep
    obtain rfl : t = u := Host.Outcome.next.inj hu
    rcases hdone with ⟨hstatus, _⟩ | rfl
    · exact absurd (hstatus.trans hrun) hended
    · exact absurd rfl hcause

/-! ### The unknown instruction (R164) -/

/-- A running step at an opcode with bit 5 clear that no mnemonic has. -/
theorem step_unknown {s : State} {ir : Byte} (hrun : s.status = .running) (hpc : s.pc + 2 ≤ 255)
    (hir : s.mem.read s.pc = ir) (h5 : ir.getLsbD 5 = false) (hill : ∀ m, opcodeMap m ≠ ir) :
    step s = .next (raised s .halted .unknownInstruction ir.toNat) := by
  rw [step_of_fetch_fits hrun hpc, State.fetched, hir, decode_illegal hill, h5]
  rfl

/-- Settles O14: decode rejects the byte with bit 5 clear as unknown; the 2-byte program's first step is such a step, at
address 0. -/
theorem unknownInstructionChangesNothingElse : Obligations.UnknownInstructionChangesNothingElse := by
  refine ⟨fun s hrun hpc h5 hill => step_unknown hrun hpc rfl h5 hill, fun p x y h5 hill => ⟨_, rfl, ?_⟩⟩
  have hpc : 0 + 2 ≤ 255 := by decide
  have hread : ((State.resetWith p).loadFrom loadBase [x, y]).mem.read 0 = x :=
    State.read_loadFrom_inside [x, y] (i := 0) (by simp [loadBase]) (Memory.wf_ofFun p.memInit) (Nat.succ_pos 1)
  exact step_unknown rfl hpc hread h5 hill

end Sys2Proof.Machine

/-! ## Encoding and decoding

Decoder and encoder are inverse to each other, and an instruction's own bytes at pc run it (spec/30_encoding.md R60, R64,
R65). -/

namespace Sys2Proof

/-! ### Decode of encode -/

/-- An instruction's opcode and operand bytes decode to it, whatever stands behind them. -/
theorem decode_encoded {om : OpcodeMap} (hom : om.Valid) (i : Instr) (rest : List Byte) :
    decode om ⟨om i.mnemonic, (i.operands ++ rest).getD 0 0, (i.operands ++ rest).getD 1 0⟩ = .instr i := by
  rw [decode_opcode hom, Instr.instr_mnemonic]

/-- Settles O6: the opcode and operand bytes decode to the instruction, and as many bytes as it has operands are dropped. -/
theorem decodingAnEncodedInstructionGivesItBack : Obligations.DecodingAnEncodedInstructionGivesItBack := by
  intro om i rest hom
  change decodeFront om (om i.mnemonic :: (i.operands ++ rest)) = _
  rw [decodeFront, decode_encoded hom i rest]
  simp

/-! ### Encode of decode -/

/-- An instruction's operand bytes are the first of the two bytes after its opcode, as many as its format has. -/
theorem Mnemonic.operands_instr (m : Mnemonic) (a b : Byte) :
    (m.instr a b).operands = [a, b].take (m.format.length - 1) := by
  cases m <;> rfl

/-- Where a byte sequence holds all operand bytes of the instruction read from its front, it begins with them. -/
theorem Mnemonic.operands_instr_append_drop (m : Mnemonic) {l : List Byte}
    (hlen : (m.instr (l.getD 0 0) (l.getD 1 0)).operands.length ≤ l.length) :
    (m.instr (l.getD 0 0) (l.getD 1 0)).operands ++ l.drop (m.instr (l.getD 0 0) (l.getD 1 0)).operands.length = l := by
  rw [Mnemonic.operands_instr] at hlen ⊢
  cases hf : m.format with
  | z => rfl
  | r =>
    rw [hf] at hlen
    match l, hlen with
    | _ :: _, _ => rfl
  | rr | ri =>
    rw [hf] at hlen
    match l, hlen with
    | _ :: _ :: _, _ => rfl

/-- Settles O7: a decoded byte sequence begins with the byte of a mnemonic, and the operand bytes are those behind it. -/
theorem whatDecodesIsAnEncoding : Obligations.WhatDecodesIsAnEncoding := by
  intro om bytes rest i h
  cases bytes with
  | nil => nomatch h
  | cons ir l =>
    rw [decodeFront] at h
    rcases decode_cases om ⟨ir, l.getD 0 0, l.getD 1 0⟩ with ⟨m, hm, hd⟩ | ⟨_, _, hd⟩ | ⟨_, _, hd⟩ <;> rw [hd] at h
    · dsimp only at h
      split at h
      next hlen =>
        obtain ⟨rfl, rfl⟩ := DecodedFront.instr.inj h
        rw [encode, Mnemonic.mnemonic_instr, hm, List.cons_append, m.operands_instr_append_drop hlen]
      next => nomatch h
    · nomatch h
    · nomatch h

/-! ### Words of the opcode table -/

/-- Settles O8: six opcodes of the table with their operand bytes, and two bytes that no mnemonic has. -/
theorem wordsOfEachFormatDecodeAsTheTableSays : Obligations.WordsOfEachFormatDecodeAsTheTableSays :=
  ⟨decode_opcode opcodeMap_valid .ldi 0 8, decode_opcode opcodeMap_valid .mul 0 1, decode_opcode opcodeMap_valid .cmp 3 9,
    decode_opcode opcodeMap_valid .call 1 0xFF, decode_opcode opcodeMap_valid .jne 3 0x45,
    decode_opcode opcodeMap_valid .ret 0xAA 0x55, by decide, by decide⟩

/-! ### Encoded bytes in memory -/

theorem length_encode_le (om : OpcodeMap) (i : Instr) : (encode om i).length ≤ 3 := by
  cases i <;> simp [encode, Instr.operands]

/-- Three fetched bytes that begin with an instruction's encoding decode to it. -/
theorem decode_of_encode_append {om : OpcodeMap} (hom : om.Valid) {f : Fetched} {i : Instr} {rest : List Byte}
    (h : encode om i ++ rest = [f.ir, f.opA, f.opB]) : decode om f = .instr i := by
  obtain ⟨hir, hops⟩ := List.cons.inj h
  have hd := decode_encoded hom i rest
  rwa [hir, show i.operands ++ rest = [f.opA, f.opB] from hops] at hd

end Sys2Proof

namespace Sys2Proof.Machine

/-- Settles O12: the encoding is the beginning of the three fetched bytes, so decode gives the instruction, and the step runs
it. -/
theorem encodedBytesInMemoryRun : Obligations.EncodedBytesInMemoryRun := by
  intro s i hrun hpc hbytes
  have hlen := length_encode_le opcodeMap i
  have htake : encode opcodeMap i =
      [s.fetched.ir, s.fetched.opA, s.fetched.opB].take (encode opcodeMap i).length := by
    refine List.ext_getElem (by simpa using hlen) fun k hk _ => ?_
    rw [← hbytes k hk, List.getElem_take]
    match k, hk.trans_le hlen with
    | 0, _ | 1, _ | 2, _ => rfl
  have happend := List.take_append_drop (encode opcodeMap i).length [s.fetched.ir, s.fetched.opA, s.fetched.opB]
  rw [← htake] at happend
  rw [step_of_fetch_fits hrun hpc, decode_of_encode_append opcodeMap_valid happend]
  rfl

end Sys2Proof.Machine

/-! ## What an instruction and a step can do

The cases of `exec_cases` and `step_cases` by name, and what they say of the output, memory, registers and the run's status. -/

namespace Sys2Proof.Machine

/-! ### Pushing a byte (20_memory.md R43) -/

/-- The state PUSH and CALL store in: SP decremented, and the byte at the new SP. -/
def State.pushByte (s : State) (v : Byte) : State :=
  s.decSp.setByte s.decSp.stackTop v

@[simp] theorem State.mem_pushByte (s : State) (v : Byte) : (s.pushByte v).mem = s.mem.write s.decSp.stackTop v := rfl

/-! ### The effects of an instruction -/

/-- `Effect s i t`: `t` is a state that instruction `i` can leave from `s`, one constructor per shape of `exec_cases`. -/
inductive Effect (s : State) : Instr → State → Prop where
  | badRegister {i : Instr} (v : Nat) (h8 : 8 ≤ v) (h255 : v ≤ 255) : Effect s i (s.raise .badRegister v)
  | divideByZero {i : Instr} : Effect s i (s.raise .divideByZero 0xA3)
  | halt : Effect s .halt s.halt
  | write {i : Instr} {a : Byte} (ha : a.toNat < 8) (v : Byte)
      (hi : i = .ldi a v ∨ ∃ b, i = .add a b ∨ i = .sub a b ∨ i = .mul a b ∨ i = .div a b) :
      Effect s i ((s.setReg ⟨a.toNat, ha⟩ v).advance 3)
  | prn {a : Byte} (ha : a.toNat < 8) : Effect s (.prn a) ((s.emit (s.reg ⟨a.toNat, ha⟩)).advance 2)
  | push {a : Byte} (ha : a.toNat < 8) : Effect s (.push a) ((s.pushByte (s.decSp.reg ⟨a.toNat, ha⟩)).advance 2)
  | pop {a : Byte} (ha : a.toNat < 8) :
      Effect s (.pop a) ((s.setReg ⟨a.toNat, ha⟩ (s.mem.read s.stackTop)).incSp.advance 2)
  | call {a : Byte} (ha : a.toNat < 8) :
      Effect s (.call a) ((s.pushByte (BitVec.ofNat 8 (s.pc + 2))).setPc (s.decSp.reg ⟨a.toNat, ha⟩).toNat)
  | ret : Effect s .ret (s.setPc (s.mem.read s.stackTop).toNat).incSp
  | jump {i : Instr} {a : Byte} (ha : a.toNat < 8) (hi : i = .jmp a ∨ i = .jeq a ∨ i = .jne a) :
      Effect s i (s.setPc (s.reg ⟨a.toNat, ha⟩).toNat)
  | notTaken {i : Instr} {a : Byte} (hi : i = .jeq a ∨ i = .jne a) : Effect s i (s.advance 2)
  | cmp {a b : Byte} (ha : a.toNat < 8) (hb : b.toNat < 8) :
      Effect s (.cmp a b) ((s.setFl (compareFlags (s.reg ⟨a.toNat, ha⟩) (s.reg ⟨b.toNat, hb⟩))).advance 3)

/-- The next state of an instruction is one of its effects. -/
theorem effect_of_exec {i : Instr} {s t : State} (h : exec i s = .next t) : Effect s i t := by
  obtain ⟨u, hu, hcases⟩ := exec_cases i s
  obtain rfl : u = t := Host.Outcome.next.inj (hu.symm.trans h)
  rcases hcases with ⟨v, h8, h255, rfl⟩ | rfl | ⟨rfl, rfl⟩ | ⟨_, ha, v, hi, rfl⟩ | ⟨_, ha, rfl, rfl⟩ | ⟨_, ha, rfl, rfl⟩ |
    ⟨_, ha, rfl, rfl⟩ | ⟨_, ha, rfl, rfl⟩ | ⟨rfl, rfl⟩ | ⟨_, ha, hi, rfl⟩ | ⟨_, hi, rfl⟩ | ⟨_, _, ha, hb, rfl, rfl⟩
  · exact .badRegister v h8 h255
  · exact .divideByZero
  · exact .halt
  · exact .write ha v hi
  · exact .prn ha
  · exact .push ha
  · exact .pop ha
  · exact .call ha
  · exact .ret
  · exact .jump ha hi
  · exact .notTaken hi
  · exact .cmp ha hb

/-- Only PRN appends to the output, the byte of its register. -/
theorem Effect.out_eq {i : Instr} {s t : State} (h : Effect s i t) :
    t.out = s.out ∨ ∃ (a : Byte) (ha : a.toNat < 8), i = .prn a ∧ t.out = s.out ++ [s.reg ⟨a.toNat, ha⟩] := by
  cases h with
  | prn ha => exact .inr ⟨_, ha, rfl, rfl⟩
  | _ => exact .inl rfl

/-- Only PUSH and CALL write memory, at the decremented SP. -/
theorem Effect.mem_eq {i : Instr} {s t : State} (h : Effect s i t) :
    t.mem = s.mem ∨ ∃ a v, (i = .push a ∨ i = .call a) ∧ t.mem = s.mem.write s.decSp.stackTop v := by
  cases h with
  | push ha => exact .inr ⟨_, _, .inl rfl, rfl⟩
  | call ha => exact .inr ⟨_, _, .inr rfl, rfl⟩
  | _ => exact .inl rfl

/-- An instruction leaves status, cause and info alone, or is HALT, or raises one of its two errors. -/
theorem Effect.run_eq {i : Instr} {s t : State} (h : Effect s i t) :
    SameRun s t ∨ (i = .halt ∧ t = s.halt) ∨ (∃ v, 8 ≤ v ∧ v ≤ 255 ∧ t = s.raise .badRegister v) ∨
      t = s.raise .divideByZero 0xA3 := by
  cases h with
  | badRegister v h8 h255 => exact .inr (.inr (.inl ⟨v, h8, h255, rfl⟩))
  | divideByZero => exact .inr (.inr (.inr rfl))
  | halt => exact .inr (.inl ⟨rfl, rfl⟩)
  | _ => exact .inl ⟨rfl, rfl, rfl⟩

/-- From a pc whose fetch fits, an instruction goes to a byte's value or at most 3 on. -/
theorem Effect.pc_le {i : Instr} {s t : State} (h : Effect s i t) (hpc : s.pc ≤ 253) : t.pc ≤ 256 := by
  cases h with
  | call ha | ret | jump ha hi => exact (BitVec.isLt _).le
  | prn ha | push ha | pop ha | notTaken hi => exact Nat.add_le_of_le_sub (by decide) (hpc.trans (by decide))
  | write ha v hi | cmp ha hb => exact Nat.add_le_of_le_sub (by decide) hpc
  | badRegister v h8 h255 | divideByZero | halt => exact hpc.trans (by decide)

/-- Writing a register changes no other. -/
theorem State.eq_of_reg_setReg_ne {s : State} {q r : Fin 8} {v : Byte} (hne : (s.setReg q v).reg r ≠ s.reg r) : r = q := by
  by_contra hrq
  exact hne (by rw [State.reg_setReg, if_neg hrq])

/-- A register that an instruction changes is one that the table of R22 names for it. -/
theorem Effect.mem_writtenRegs {i : Instr} {s t : State} {r : Fin 8} (h : Effect s i t) (hne : t.reg r ≠ s.reg r) :
    r.val ∈ writtenRegs i := by
  cases h with
  | write ha v hi =>
    obtain rfl := State.eq_of_reg_setReg_ne hne
    rcases hi with rfl | ⟨b, rfl | rfl | rfl | rfl⟩ <;> exact List.mem_singleton_self _
  | push ha | call ha | ret =>
    obtain rfl := State.eq_of_reg_setReg_ne hne
    exact List.mem_singleton_self _
  | pop ha =>
    by_cases hsp : r = spReg
    · subst hsp
      simp [writtenRegs]
    · rw [State.reg_advance, State.reg_incSp, if_neg hsp] at hne
      obtain rfl := State.eq_of_reg_setReg_ne hne
      exact List.mem_cons_self
  | _ => exact absurd rfl hne

/-! ### The effects of a step -/

/-- `StepEffect s t`: `t` is a state that a step can leave from `s`, by what its fetch and decode gave. -/
inductive StepEffect (s : State) : State → Prop where
  | bounds (hpc : 253 < s.pc) : StepEffect s (s.raise .boundsFault (max 256 s.pc))
  | unsupported (ir : Byte) : StepEffect s (s.raise .unsupportedOperation ir.toNat)
  | unknown (ir : Byte) : StepEffect s (s.raise .unknownInstruction ir.toNat)
  | instr {t : State} (i : Instr) (hpc : s.pc ≤ 253) (hd : decode opcodeMap s.fetched = .instr i) (h : Effect s i t) :
      StepEffect s t

/-- Only a running state has a step. -/
theorem running_of_step {s t : State} (h : step s = .next t) : s.status = .running := by
  by_contra hended
  rw [step_not_running hended] at h
  nomatch h

/-- The next state of a step is one of its effects. -/
theorem stepEffect_of_step {s t : State} (h : step s = .next t) : StepEffect s t := by
  rcases step_cases (running_of_step h) with ⟨hpc, hraise⟩ | ⟨hpc, hroute⟩
  · obtain rfl := Host.Outcome.next.inj (hraise.symm.trans h)
    exact .bounds hpc
  · rw [hroute] at h
    cases hd : decode opcodeMap s.fetched with
    | instr i =>
      rw [hd] at h
      exact .instr i hpc hd (effect_of_exec h)
    | unsupported ir =>
      rw [hd] at h
      obtain rfl := Host.Outcome.next.inj h
      exact .unsupported ir
    | unknown ir =>
      rw [hd] at h
      obtain rfl := Host.Outcome.next.inj h
      exact .unknown ir

end Sys2Proof.Machine

/-! ## The invariant

It holds at every launch, every step keeps it, and so every state of every run meets it (spec/10_state.md R25, R28,
60_exceptions.md R161). -/

namespace Sys2Proof.Machine

/-! ### Every step keeps it -/

/-- A running state that meets the invariant has recorded no error. -/
theorem State.StatusWf.of_running {s : State} (h : s.StatusWf) (hrun : s.status = .running) :
    s.cause = .none ∧ s.info = 0 := by
  unfold State.StatusWf at h
  cases hc : s.cause <;> simp_all

theorem State.StatusWf.of_sameRun {s t : State} (h : s.StatusWf) (hrun : SameRun s t) : t.StatusWf := by
  obtain ⟨hstatus, hcause, hinfo⟩ := hrun
  unfold State.StatusWf
  rwa [hstatus, hcause, hinfo]

/-- Every effect of an instruction pairs status, cause and info as the table of R161 does. -/
theorem Effect.statusWf {i : Instr} {s t : State} (h : Effect s i t) (hs : s.StatusWf) (hrun : s.status = .running) :
    t.StatusWf := by
  rcases h.run_eq with hsame | ⟨_, rfl⟩ | ⟨v, h8, h255, rfl⟩ | rfl
  · exact hs.of_sameRun hsame
  · exact ⟨by simp, (hs.of_running hrun).2⟩
  · exact ⟨rfl, h8, h255⟩
  · exact ⟨rfl, rfl⟩

/-- Every effect of an instruction keeps memory canonical. -/
theorem Effect.wf_mem {i : Instr} {s t : State} (h : Effect s i t) (hs : s.mem.wf = true) : t.mem.wf = true := by
  rcases h.mem_eq with hmem | ⟨_, _, _, hmem⟩ <;> rw [hmem]
  · exact hs
  · exact Memory.wf_write s.decSp.stackTop_lt hs

/-- Settles O4: an error leaves pc and memory alone and records what the table of R161 says, a bounds fault 256 because pc is
at most 256; an instruction runs from a pc of at most 253, keeps memory canonical and ends the run as the table says. -/
theorem everyStepKeepsTheInvariant : Obligations.EveryStepKeepsTheInvariant := by
  intro s t ⟨hpc, hmem, hwf⟩ hstep
  cases stepEffect_of_step hstep with
  | bounds _ => exact ⟨hpc, hmem, rfl, Nat.max_eq_left hpc⟩
  | unsupported ir | unknown ir => exact ⟨hpc, hmem, rfl, Nat.le_of_lt_succ ir.isLt⟩
  | instr i hfit _ heff => exact ⟨heff.pc_le hfit, heff.wf_mem hmem, heff.statusWf hwf (running_of_step hstep)⟩

/-! ### Every launch meets it -/

theorem launchWith_of_le {image : List Byte} (p : OpenParams) (h : image.length ≤ 256) :
    launchWith p image = .next ((State.resetWith p).loadFrom loadBase image) :=
  if_neg (by omega)

theorem launchWith_of_gt {image : List Byte} (p : OpenParams) (h : 256 < image.length) :
    launchWith p image = .refused (.imageTooLong image.length) :=
  if_pos h

/-- Loading an image that fits keeps the invariant. -/
theorem State.Inv.loadFrom {s : State} (hs : s.Inv) {addr : Nat} {image : List Byte} (h : addr + image.length ≤ 256) :
    (s.loadFrom addr image).Inv := by
  obtain ⟨hpc, hmem, hwf⟩ := hs
  obtain ⟨_, hpc', _, hstatus, hcause, hinfo, _⟩ := State.loadFrom_fields image s addr
  exact ⟨hpc'.trans_le hpc, State.wf_loadFrom image h hmem, hwf.of_sameRun ⟨hstatus, hcause, hinfo⟩⟩

theorem State.inv_resetWith (p : OpenParams) : (State.resetWith p).Inv :=
  ⟨Nat.zero_le _, Memory.wf_ofFun p.memInit, by simp [State.resetWith], rfl⟩

theorem State.Inv.of_launchWith {p : OpenParams} {image : List Byte} {t : State} (h : launchWith p image = .next t) :
    t.Inv := by
  rcases Nat.lt_or_ge 256 image.length with hlong | hfits
  · rw [launchWith_of_gt p hlong] at h
    nomatch h
  · rw [eq_loadFrom_of_launchWith h]
    exact (State.inv_resetWith p).loadFrom (by simpa [loadBase] using hfits)

/-- Settles O3: reset meets the invariant for all values of the OPEN parameters, and loading an image that fits keeps it. -/
theorem everyLaunchMeetsTheInvariant : Obligations.EveryLaunchMeetsTheInvariant :=
  ⟨⟨Nat.zero_le _, Memory.wf_nil, by decide, rfl⟩, fun _ _ _ h => .of_launchWith h⟩

/-! ### Runs -/

theorem State.stepEvent_of_next {s t : State} (h : step s = .next t) : s.stepEvent = t := by
  rw [State.stepEvent, h]

/-- The event is ignored where status is not RUNNING (R175). -/
theorem State.stepEvent_of_ended {s : State} (h : s.Ended) : s.stepEvent = s := by
  rw [State.stepEvent, step_not_running h]

theorem State.Inv.stepEvent {s : State} (hs : s.Inv) : s.stepEvent.Inv := by
  by_cases hrun : s.status = .running
  · obtain ⟨t, ht⟩ := step_running_next hrun
    rw [State.stepEvent_of_next ht]
    exact everyStepKeepsTheInvariant s t hs ht
  · rwa [State.stepEvent_of_ended hrun]

/-- What the step event keeps, a run of any number of steps keeps. -/
theorem State.runFor_keeps {P : State → Prop} (hstep : ∀ s, P s → P s.stepEvent) (n : Nat) {s : State} (hs : P s) :
    P (s.runFor n) := by
  induction n generalizing s with
  | zero => exact hs
  | succ n ih => exact ih (hstep s hs)

/-- Settles O5: every launch meets the invariant and every step event keeps it. -/
theorem everyStateOfARunMeetsTheInvariant : Obligations.EveryStateOfARunMeetsTheInvariant :=
  fun _ _ _ n h => State.runFor_keeps (fun _ hs => hs.stepEvent) n (.of_launchWith h)

/-- Settles O10: the step is the fault `notRunning`, so the step event leaves the state as it is, and so does a run of them. -/
theorem aTerminalStateIsForever : Obligations.ATerminalStateIsForever := by
  intro s n hended
  have hstay : s.stepEvent = s := State.stepEvent_of_ended hended
  refine ⟨step_not_running hended, hstay, State.runFor_keeps (P := (· = s)) ?_ n rfl⟩
  rintro _ rfl
  exact hstay

/-! ### The end of a run -/

/-- Settles O18: an error or a HALT leaves a state that does not run, and every other effect leaves status, cause and info. -/
theorem aStepThatRunsOnKeepsStatusCauseAndInfo : Obligations.AStepThatRunsOnKeepsStatusCauseAndInfo := by
  intro s t hstep hrun
  cases stepEffect_of_step hstep with
  | bounds | unsupported | unknown => nomatch hrun
  | instr i _ _ heff =>
    rcases heff.run_eq with hsame | ⟨_, rfl⟩ | ⟨_, _, _, rfl⟩ | rfl
    · exact hsame
    · nomatch hrun
    · nomatch hrun
    · nomatch hrun

/-- A step ends cleanly only by HALT: every error records a cause other than 0, and every other effect leaves the state
running. -/
theorem decode_eq_halt_of_cleanEnd {s t : State} (hstep : step s = .next t) (hclean : t.CleanEnd) :
    s.pc ≤ 253 ∧ decode opcodeMap s.fetched = .instr .halt := by
  obtain ⟨hhalted, hcode⟩ := hclean
  cases stepEffect_of_step hstep with
  | bounds | unsupported => nomatch hhalted
  | unknown => nomatch hcode
  | instr i hpc hd heff =>
    rcases heff.run_eq with ⟨hstatus, _⟩ | ⟨rfl, _⟩ | ⟨_, _, _, rfl⟩ | rfl
    · rw [hstatus, running_of_step hstep] at hhalted
      nomatch hhalted
    · exact ⟨hpc, hd⟩
    · nomatch hhalted
    · nomatch hhalted

/-- Settles O19: no other step ends cleanly, and HALT does. -/
theorem onlyHaltEndsARunCleanly : Obligations.OnlyHaltEndsARunCleanly := by
  intro s t hstep
  constructor
  · intro hclean
    obtain ⟨hpc, hd⟩ := decode_eq_halt_of_cleanEnd hstep hclean
    exact ⟨by omega, hd⟩
  · rintro ⟨hpc, hd⟩
    rw [step_of_fetch_fits (running_of_step hstep) hpc, hd] at hstep
    obtain rfl := Host.Outcome.next.inj hstep
    exact ⟨rfl, rfl⟩

end Sys2Proof.Machine

/-! ## Frames of an instruction

Which registers and which byte of memory it can change (spec/10_state.md R22, 20_memory.md R43). -/

namespace Sys2Proof.Machine

/-- Settles O20: a register that an effect changes is in the table. -/
theorem onlyTheNamedRegistersChange : Obligations.OnlyTheNamedRegistersChange :=
  fun _ _ _ _ h hne => (effect_of_exec h).mem_writtenRegs hne

/-- Settles O22: memory is as before, or PUSH or CALL wrote the one byte at the decremented SP. -/
theorem onlyPushAndCallWriteMemory : Obligations.OnlyPushAndCallWriteMemory := by
  intro i s t addr h hne
  rcases (effect_of_exec h).mem_eq with hmem | ⟨a, v, hi, hmem⟩ <;> rw [hmem] at hne
  · exact absurd rfl hne
  · refine ⟨?_, a, hi⟩
    by_contra haddr
    exact hne (Memory.read_write_other s.mem haddr)

end Sys2Proof.Machine

/-! ## Reset and launch

What the machine holds before its first step (spec/10_state.md R33, 70_reset_and_hazards.md R182). -/

namespace Sys2Proof.Machine

/-- The register column of the reset table (R33). -/
theorem State.reg_resetWith_castSucc (p : OpenParams) (i : Fin 7) : (State.resetWith p).reg i.castSucc = p.regInit i := by
  fin_cases i <;> rfl

theorem State.mem_resetWith (p : OpenParams) : (State.resetWith p).mem = Memory.ofFun p.memInit := rfl

/-- Settles O1: loading writes memory only, the image's bytes from address 0, so the rest is as the reset table says. -/
theorem launchGivesResetValuesAndImage : Obligations.LaunchGivesResetValuesAndImage := by
  intro p image
  refine ⟨fun hfits => ⟨_, launchWith_of_le p hfits, ?_⟩, launchWith_of_gt p⟩
  have hfits' : loadBase + image.length ≤ 256 := by simpa [loadBase] using hfits
  obtain ⟨hregs, hpc, hfl, hstatus, hcause, hinfo, hout⟩ := State.loadFrom_fields image (State.resetWith p) loadBase
  have hreg (r : Fin 8) : ((State.resetWith p).loadFrom loadBase image).reg r = (State.resetWith p).reg r :=
    congrArg (·[r]) hregs
  refine ⟨hreg spReg, fun i => (hreg _).trans (State.reg_resetWith_castSucc p i), hpc, hfl, fun i hi => ?_,
    fun a ha => ?_, hstatus, congrArg Cause.code hcause, hinfo, hout⟩
  · have hread := State.read_loadFrom_inside image hfits' (Memory.wf_ofFun p.memInit) (s := State.resetWith p) hi
    rwa [loadBase, Nat.zero_add] at hread
  · rw [State.read_loadFrom_outside image (.inr (by simpa [loadBase] using ha)), State.mem_resetWith, Memory.read_ofFun]

/-- A map that reads everywhere as an unlisted address lists nothing. -/
theorem Memory.ofFun_unlisted : Memory.ofFun (fun _ => Memory.unlisted) = [] := by
  refine Memory.ext_of_wf (Memory.wf_ofFun _) Memory.wf_nil fun a => ?_
  rw [Memory.ofFun, Memory.read_ofFunFrom _ 0 256 a (by decide)]
  simp

/-- Settles O2: field by field; the memory of the all-zero map lists nothing. -/
theorem resetIsTheEmptyLaunchWithZeroParameters : Obligations.ResetIsTheEmptyLaunchWithZeroParameters := by
  have hreset : State.resetWith OpenParams.zero = { State.reset with mem := Memory.ofFun fun _ => Memory.unlisted } := rfl
  rw [Obligations.ResetIsTheEmptyLaunchWithZeroParameters, launchWith_of_le _ (Nat.zero_le _), State.loadFrom, hreset,
    Memory.ofFun_unlisted]
  rfl

end Sys2Proof.Machine

/-! ## What a step does not read

A relation between states that every primitive keeps and whose states show the same registers, pc and fl relates the answers
of every instruction. Memory off the stack top and the earlier output are the two uses (spec/20_memory.md R43, 10_state.md
R30). -/

namespace Sys2Proof.Machine

/-! ### Simulation -/

/-- Both answers are next states, and `R` relates them. -/
def RelNext (R : State → State → Prop) (r r' : Result) : Prop :=
  ∃ t t', r = .next t ∧ r' = .next t' ∧ R t t'

/-- Related states show the same registers, pc and fl, and every primitive of the machine keeps the relation. -/
structure KeptByOps (R : State → State → Prop) : Prop where
  reg_eq : ∀ {s s'}, R s s' → ∀ r, s'.reg r = s.reg r
  pc_eq : ∀ {s s'}, R s s' → s'.pc = s.pc
  fl_eq : ∀ {s s'}, R s s' → s'.fl = s.fl
  setReg : ∀ {s s'}, R s s' → ∀ r v, R (s.setReg r v) (s'.setReg r v)
  setPc : ∀ {s s'}, R s s' → ∀ n, R (s.setPc n) (s'.setPc n)
  setFl : ∀ {s s'}, R s s' → ∀ v, R (s.setFl v) (s'.setFl v)
  setByte : ∀ {s s'}, R s s' → ∀ a v, R (s.setByte a v) (s'.setByte a v)
  emit : ∀ {s s'}, R s s' → ∀ v, R (s.emit v) (s'.emit v)
  raise : ∀ {s s'}, R s s' → ∀ k v, R (s.raise k v) (s'.raise k v)
  halt : ∀ {s s'}, R s s' → R s.halt s'.halt

section
variable {R : State → State → Prop} (hR : KeptByOps R) {s s' : State} (h : R s s')
include hR h

theorem KeptByOps.advance (n : Nat) : R (s.advance n) (s'.advance n) := by
  change R (s.setPc (s.pc + n)) (s'.setPc (s'.pc + n))
  rw [hR.pc_eq h]
  exact hR.setPc h _

theorem KeptByOps.decSp : R s.decSp s'.decSp := by
  change R (s.setReg spReg (s.reg spReg - 1)) (s'.setReg spReg (s'.reg spReg - 1))
  rw [hR.reg_eq h]
  exact hR.setReg h _ _

theorem KeptByOps.incSp : R s.incSp s'.incSp := by
  change R (s.setReg spReg (s.reg spReg + 1)) (s'.setReg spReg (s'.reg spReg + 1))
  rw [hR.reg_eq h]
  exact hR.setReg h _ _

theorem KeptByOps.stackTop_eq : s'.stackTop = s.stackTop :=
  congrArg BitVec.toNat (hR.reg_eq h spReg)

theorem KeptByOps.withReg {a : Byte} {next next' : Fin 8 → Result} (hnext : ∀ r, RelNext R (next r) (next' r)) :
    RelNext R (withReg s a next) (withReg s' a next') := by
  rcases Nat.lt_or_ge a.toNat 8 with ha | ha
  · rw [withReg_of_lt ha, withReg_of_lt ha]
    exact hnext _
  · rw [withReg_of_ge ha, withReg_of_ge ha]
    exact ⟨_, _, rfl, rfl, hR.raise h _ _⟩

theorem KeptByOps.withRegs {a b : Byte} {next next' : Fin 8 → Fin 8 → Result}
    (hnext : ∀ ra rb, RelNext R (next ra rb) (next' ra rb)) : RelNext R (withRegs s a b next) (withRegs s' a b next') :=
  hR.withReg h fun ra => hR.withReg h fun rb => hnext ra rb

theorem KeptByOps.jumpTo (a : Byte) : RelNext R (jumpTo a s) (jumpTo a s') := by
  refine hR.withReg h fun ra => ?_
  rw [hR.reg_eq h]
  exact ⟨_, _, rfl, rfl, hR.setPc h _⟩

theorem KeptByOps.branchIf (taken : Bool) (a : Byte) : RelNext R (branchIf taken a s) (branchIf taken a s') := by
  cases taken with
  | false => exact ⟨_, _, rfl, rfl, hR.advance h 2⟩
  | true => exact hR.jumpTo h a

theorem KeptByOps.setReg_advance (r : Fin 8) (v : Byte) (n : Nat) :
    RelNext R (.next ((s.setReg r v).advance n)) (.next ((s'.setReg r v).advance n)) :=
  ⟨_, _, rfl, rfl, hR.advance (hR.setReg h r v) n⟩

theorem KeptByOps.aluWrite (f : Byte → Byte → Byte) (a b : Byte) : RelNext R (aluWrite f a b s) (aluWrite f a b s') := by
  refine hR.withRegs h fun ra rb => ?_
  rw [hR.reg_eq h, hR.reg_eq h]
  exact hR.setReg_advance h _ _ 3

theorem KeptByOps.pushByte (v : Byte) : R (s.pushByte v) (s'.pushByte v) := by
  rw [State.pushByte, State.pushByte, hR.stackTop_eq (hR.decSp h)]
  exact hR.setByte (hR.decSp h) _ v

/-- Related states whose stack tops hold the same byte have related answers. -/
theorem KeptByOps.exec (hmem : s'.mem.read s.stackTop = s.mem.read s.stackTop) (i : Instr) :
    RelNext R (exec i s) (exec i s') := by
  have hreg := hR.reg_eq h
  have htop : s'.mem.read s'.stackTop = s.mem.read s.stackTop := (hR.stackTop_eq h).symm ▸ hmem
  cases i with
  | halt => exact ⟨_, _, rfl, rfl, hR.halt h⟩
  | ldi a imm => exact hR.withReg h fun r => hR.setReg_advance h r imm 3
  | prn a =>
    refine hR.withReg h fun r => ⟨_, _, rfl, rfl, ?_⟩
    rw [hreg]
    exact hR.advance (hR.emit h _) 2
  | push a =>
    refine hR.withReg h fun r => ⟨_, _, push_eq .., push_eq .., ?_⟩
    rw [hR.reg_eq (hR.decSp h)]
    exact hR.advance (hR.pushByte h _) 2
  | pop a =>
    refine hR.withReg h fun r => ⟨_, _, pop_eq .., pop_eq .., ?_⟩
    rw [htop]
    exact hR.advance (hR.incSp (hR.setReg h r _)) 2
  | call a =>
    refine hR.withReg h fun r => ⟨_, _, push_eq .., push_eq .., ?_⟩
    rw [hR.pc_eq h, State.reg_setByte, State.reg_setByte, hR.reg_eq (hR.decSp h)]
    exact hR.setPc (hR.pushByte h _) _
  | ret =>
    refine ⟨_, _, exec_ret s, exec_ret s', ?_⟩
    rw [htop]
    exact hR.incSp (hR.setPc h _)
  | jmp a => exact hR.jumpTo h a
  | jeq a =>
    change RelNext R (Machine.branchIf (flagE s.fl) a s) (Machine.branchIf (flagE s'.fl) a s')
    rw [hR.fl_eq h]
    exact hR.branchIf h _ a
  | jne a =>
    change RelNext R (Machine.branchIf (!flagE s.fl) a s) (Machine.branchIf (!flagE s'.fl) a s')
    rw [hR.fl_eq h]
    exact hR.branchIf h _ a
  | add a b => exact hR.aluWrite h aluAdd a b
  | sub a b => exact hR.aluWrite h aluSub a b
  | mul a b => exact hR.aluWrite h aluMul a b
  | div a b =>
    refine hR.withRegs h fun ra rb => ?_
    rw [hreg, hreg]
    split
    · exact ⟨_, _, rfl, rfl, hR.raise h _ _⟩
    · exact hR.setReg_advance h _ _ 3
  | cmp a b =>
    refine hR.withRegs h fun ra rb => ?_
    rw [hreg, hreg]
    exact ⟨_, _, rfl, rfl, hR.advance (hR.setFl h _) 3⟩

end

/-! ### Memory -/

/-- Two states that differ at most in memory. -/
def SameButMem (s s' : State) : Prop :=
  { s' with mem := s.mem } = s

theorem SameButMem.eq {s s' : State} (h : SameButMem s s') : s' = { s with mem := s'.mem } := by
  rw [← h]

theorem keptByOps_sameButMem : KeptByOps SameButMem where
  reg_eq h _ := by rw [h.eq]; rfl
  pc_eq h := by rw [h.eq]
  fl_eq h := by rw [h.eq]
  setReg h _ _ := by rw [h.eq]; rfl
  setPc h _ := by rw [h.eq]; rfl
  setFl h _ := by rw [h.eq]; rfl
  setByte h _ _ := by rw [h.eq]; rfl
  emit h _ := by rw [h.eq]; rfl
  raise h _ _ := by rw [h.eq]; rfl
  halt h := by rw [h.eq]; rfl

/-- Settles O23: both states fetch the same bytes or raise the same fault, and an instruction reads memory only at the stack
top. -/
theorem aStepReadsOnlyItsFetchAndTheStackTop : Obligations.AStepReadsOnlyItsFetchAndTheStackTop := by
  intro s t m h0 h1 h2 htop hstep
  have hrun := running_of_step hstep
  have hrun' : ({ s with mem := m } : State).status = .running := hrun
  have hrel : SameButMem s { s with mem := m } := rfl
  suffices hnext : RelNext SameButMem (step s) (step { s with mem := m }) by
    obtain ⟨t', u, ht, hu, hsame⟩ := hnext
    obtain rfl : t' = t := Host.Outcome.next.inj (ht.symm.trans hstep)
    exact ⟨u, hu, hsame⟩
  rcases Nat.lt_or_ge 253 s.pc with hpc | hpc
  · exact ⟨_, _, step_of_fetch_past_end hrun hpc rfl, step_of_fetch_past_end hrun' hpc rfl, rfl⟩
  · have hfetched : ({ s with mem := m } : State).fetched = s.fetched := by
      simp only [State.fetched, h0, h1, h2]
    rw [step_of_fetch_fits hrun (by omega), step_of_fetch_fits hrun' (Nat.add_le_of_le_sub (by decide) hpc), hfetched]
    cases decode opcodeMap s.fetched with
    | instr i => exact keptByOps_sameButMem.exec hrel htop i
    | unsupported ir | unknown ir => exact ⟨_, _, rfl, rfl, rfl⟩

/-! ### The output -/

/-- Two states that differ at most in the first bytes of the output: `old` many in the one, `earlier` in the other. -/
def SameButEarlierOut (old : Nat) (earlier : List Byte) (s s' : State) : Prop :=
  old ≤ s.out.length ∧ s' = { s with out := earlier ++ s.out.drop old }

theorem SameButEarlierOut.emit {old : Nat} {earlier : List Byte} {s s' : State} (h : SameButEarlierOut old earlier s s')
    (v : Byte) : SameButEarlierOut old earlier (s.emit v) (s'.emit v) := by
  obtain ⟨hold, rfl⟩ := h
  refine ⟨by simp; omega, ?_⟩
  simp [State.emit, List.drop_append_of_le_length hold]

theorem keptByOps_sameButEarlierOut (old : Nat) (earlier : List Byte) : KeptByOps (SameButEarlierOut old earlier) where
  reg_eq h _ := by rw [h.2]; rfl
  pc_eq h := by rw [h.2]
  fl_eq h := by rw [h.2]
  setReg h _ _ := ⟨h.1, by rw [h.2]; rfl⟩
  setPc h _ := ⟨h.1, by rw [h.2]; rfl⟩
  setFl h _ := ⟨h.1, by rw [h.2]; rfl⟩
  setByte h _ _ := ⟨h.1, by rw [h.2]; rfl⟩
  emit h v := h.emit v
  raise h _ _ := ⟨h.1, by rw [h.2]; rfl⟩
  halt h := ⟨h.1, by rw [h.2]; rfl⟩

/-- Settles O24: the effects append by PRN only, and no operation reads the output. -/
theorem outputIsOnlyAppendedAndNeverRead : Obligations.OutputIsOnlyAppendedAndNeverRead := by
  refine ⟨fun i s t h => ?_, fun i s t earlier h => ?_⟩
  · rcases (effect_of_exec h).out_eq with hout | ⟨a, ha, hi, hout⟩
    · exact .inl hout
    · exact .inr ⟨a, _, hi, hout⟩
  · have hrel : SameButEarlierOut s.out.length earlier s { s with out := earlier } := ⟨le_rfl, by simp⟩
    obtain ⟨u, u', hu, hu', _, rfl⟩ := (keptByOps_sameButEarlierOut _ _).exec hrel rfl i
    obtain rfl : u = t := Host.Outcome.next.inj (hu.symm.trans h)
    exact hu'

end Sys2Proof.Machine

/-! ## The ports

When `out_valid` is asserted, and what stands on `status`, `cause` and `info` (spec/60_exceptions.md R175). -/

namespace Sys2Proof.Machine

/-- `out_valid` is not asserted in a step event that appends nothing. -/
theorem State.outPort_of_out_eq {s : State} (h : s.stepEvent.out = s.out) : s.outPort = none := by
  rw [State.outPort, h]
  exact List.getElem?_eq_none le_rfl

/-- A step that executes PRN of a register shows the register's value. -/
theorem State.outPort_of_prn {s : State} {a : Byte} (hrun : s.status = .running) (hpc : s.pc + 2 ≤ 255)
    (ha : a.toNat < 8) (hd : decode opcodeMap s.fetched = .instr (.prn a)) : s.outPort = some (s.reg ⟨a.toNat, ha⟩) := by
  have hstep : step s = .next ((s.emit (s.reg ⟨a.toNat, ha⟩)).advance 2) := by
    rw [step_of_fetch_fits hrun hpc, hd]
    exact exec_prn ha
  rw [State.outPort, State.stepEvent_of_next hstep, State.out_advance, State.out_emit]
  exact List.getElem?_concat_length

/-- A step event appends nothing, or is a step that executes PRN of a register. -/
theorem State.stepEvent_out_eq (s : State) : s.stepEvent.out = s.out ∨ s.status = .running ∧ s.pc + 2 ≤ 255 ∧
    ∃ (a : Byte) (_ : a.toNat < 8), decode opcodeMap s.fetched = .instr (.prn a) := by
  by_cases hrun : s.status = .running
  · obtain ⟨t, hstep⟩ := step_running_next hrun
    rw [State.stepEvent_of_next hstep]
    cases stepEffect_of_step hstep with
    | bounds | unsupported | unknown => exact .inl rfl
    | instr i hpc hd heff =>
      rcases heff.out_eq with hout | ⟨a, ha, rfl, _⟩
      · exact .inl hout
      · exact .inr ⟨hrun, by omega, a, ha, hd⟩
  · exact .inl (by rw [State.stepEvent_of_ended hrun])

theorem State.StatusWf.info_le {s : State} (h : s.StatusWf) : s.info ≤ 256 := by
  unfold State.StatusWf at h
  cases hc : s.cause <;> rw [hc] at h <;> dsimp only at h <;> omega

theorem Cause.code_lt (c : Cause) : c.code < 2 ^ 3 := by
  cases c <;> decide

/-- Each status has a number of its own on the port. -/
theorem State.statusPort_iff (s : State) : (s.statusPort = 0 ↔ s.status = .running) ∧
    (s.statusPort = 1 ↔ s.status = .halted) ∧ (s.statusPort = 2 ↔ s.status = .aborted) := by
  unfold State.statusPort
  cases s.status <;> decide

/-- Settles O25: a step that is no PRN of a register appends nothing, so shows nothing; info is at most 256 and a cause code
at most 5, so their ports lose nothing. -/
theorem thePortsCarryWhatTheStepDid : Obligations.ThePortsCarryWhatTheStepDid := by
  refine ⟨fun s v => ⟨fun hport => ?_, ?_⟩, fun s ⟨_, _, hwf⟩ => ⟨?_, ?_, s.statusPort_iff⟩⟩
  · rcases s.stepEvent_out_eq with hout | ⟨hrun, hpc, a, ha, hd⟩
    · rw [State.outPort_of_out_eq hout] at hport
      nomatch hport
    · rw [State.outPort_of_prn hrun hpc ha hd] at hport
      exact ⟨hrun, hpc, a, ha, hd, (Option.some.inj hport).symm⟩
  · rintro ⟨hrun, hpc, a, ha, hd, rfl⟩
    exact State.outPort_of_prn hrun hpc ha hd
  · exact (BitVec.toNat_ofNat ..).trans (Nat.mod_eq_of_lt (hwf.info_le.trans_lt (by decide)))
  · exact (BitVec.toNat_ofNat ..).trans (Nat.mod_eq_of_lt s.cause.code_lt)

end Sys2Proof.Machine

/-! ## The stack

PUSH, POP and CALL, the operand latch, and the two laws (spec/42_data_movement.md R124, R126, R127, 43_control_transfer.md
R140, R141, 70_reset_and_hazards.md R190). -/

namespace Sys2Proof.Machine

/-! ### Pushing and popping -/

theorem State.reg_decSp_spReg (s : State) : s.decSp.reg spReg = s.reg spReg - 1 := by
  rw [State.reg_decSp, if_pos rfl]

/-- The register an index byte names, with SP decremented. -/
theorem State.reg_decSp_index (s : State) {a : Byte} (ha : a.toNat < 8) :
    s.decSp.reg ⟨a.toNat, ha⟩ = if a = 7 then s.decSp.reg spReg else s.reg ⟨a.toNat, ha⟩ := by
  simp only [State.reg_decSp, regIndex_eq_spReg ha, if_true]

/-- Decrementing SP is reduced modulo 256 and writes no other register. -/
theorem State.decSp_regs (s : State) :
    ((s.decSp.reg spReg).toNat : Int) = ((s.reg spReg).toNat - 1) % 256 ∧ SameRegsBut spReg s s.decSp := by
  refine ⟨?_, fun q hq => by rw [State.reg_decSp, if_neg hq]⟩
  rw [State.reg_decSp_spReg]
  bv_omega

/-- A pushed byte reads back at the decremented SP, and pushing writes no other byte. -/
theorem State.read_pushByte_same {s : State} (hs : s.mem.wf = true) (v : Byte) :
    (s.pushByte v).mem.read s.decSp.stackTop = v := by
  rw [State.mem_pushByte, Memory.read_write_same hs]

theorem State.sameMemBut_pushByte (s : State) (v : Byte) : SameMemBut s.decSp.stackTop s (s.pushByte v) := by
  intro addr hne
  rw [State.mem_pushByte, Memory.read_write_other s.mem hne]

/-- The return address of a CALL whose fetch fits is a byte (R140). -/
theorem toNat_returnAddress {pc : Nat} (h : pc + 2 ≤ 255) : (BitVec.ofNat 8 (pc + 2)).toNat = pc + 2 :=
  (BitVec.toNat_ofNat ..).trans (Nat.mod_eq_of_lt (Nat.lt_succ_of_le h))

/-! ### The instructions -/

/-- Settles O29: what is stored is the register with SP decremented, and the rest is the frame of a push. -/
theorem pushDecrementsThenStores : Obligations.PushDecrementsThenStores := by
  intro a s
  refine ⟨rfl, fun ha => withReg_of_ge ha, fun ha hwf => ⟨_, exec_push ha, ?_⟩⟩
  obtain ⟨hsp, hregs⟩ := s.decSp_regs
  have hread := (State.read_pushByte_same hwf (s.decSp.reg ⟨a.toNat, ha⟩)).trans (s.reg_decSp_index ha)
  exact ⟨hsp, hregs, hread, rfl, s.sameMemBut_pushByte _, rfl, rfl, ⟨rfl, rfl, rfl⟩, rfl⟩

/-- Settles O30: register a is written first and SP incremented as it stands then, so the two registers are the same cell
exactly for a = 7. -/
theorem popLoadsThenIncrements : Obligations.PopLoadsThenIncrements := by
  intro a s
  refine ⟨rfl, fun ha => withReg_of_ge ha, fun ha => ⟨_, exec_pop ha, ?_⟩⟩
  obtain ⟨hsp, hregs, hfl, hmem, hrun, hout⟩ :=
    (s.setReg ⟨a.toNat, ha⟩ (s.mem.read s.stackTop)).incSp_frame
  refine ⟨fun hne => ⟨?_, ?_⟩, fun h7 => ?_, fun q hqa hqsp => ?_, rfl, hfl, hmem, hrun, hout⟩
  · have hne' : (⟨a.toNat, ha⟩ : Fin 8) ≠ spReg := fun h => hne ((regIndex_eq_spReg ha).1 h)
    refine (hregs _ hne').trans ?_
    rw [State.reg_setReg, if_pos rfl]
    rfl
  · have hne' : spReg ≠ (⟨a.toNat, ha⟩ : Fin 8) := fun h => hne ((regIndex_eq_spReg ha).1 h.symm)
    rwa [State.reg_setReg, if_neg hne'] at hsp
  · rwa [State.reg_setReg, if_pos ((regIndex_eq_spReg ha).2 h7).symm] at hsp
  · refine (hregs q hqsp).trans ?_
    rw [State.reg_setReg, if_neg hqa]

/-- Settles O32: the return address is pushed as for PUSH, and pc is the register with SP decremented. -/
theorem callPushesTheReturnAddressAndJumps : Obligations.CallPushesTheReturnAddressAndJumps := by
  intro a s
  refine ⟨rfl, fun ha => withReg_of_ge ha, fun ha hpc hwf => ⟨_, exec_call ha, ?_⟩⟩
  obtain ⟨hsp, hregs⟩ := s.decSp_regs
  have hread := (congrArg BitVec.toNat (State.read_pushByte_same hwf _)).trans (toNat_returnAddress hpc)
  exact ⟨hsp, hregs, hread, rfl, s.sameMemBut_pushByte _, congrArg BitVec.toNat (s.reg_decSp_index ha), rfl,
    ⟨rfl, rfl, rfl⟩, rfl⟩

/-- Settles O38: the instruction is decoded from the fetched bytes, so where the store goes does not matter. -/
theorem aStoreOverItsOwnOperandsDoesNotChangeThem : Obligations.AStoreOverItsOwnOperandsDoesNotChangeThem := by
  intro a s ha ⟨_, hwf, _⟩ hrun hpc _
  rw [step_of_fetch_fits hrun hpc]
  refine ⟨fun hd => ?_, fun hd => ?_⟩ <;> rw [hd]
  · exact ⟨_, exec_push ha, rfl, State.read_pushByte_same hwf _⟩
  · exact ⟨_, exec_call ha, rfl,
      (congrArg BitVec.toNat (State.read_pushByte_same hwf _)).trans (toNat_returnAddress hpc)⟩

/-! ### The two laws -/

/-- Writing back a register's own value changes no register. -/
theorem State.reg_setReg_self (s : State) (r q : Fin 8) : (s.setReg r (s.reg r)).reg q = s.reg q := by
  rw [State.reg_setReg]
  split
  · subst_vars
    rfl
  · rfl

/-- Incrementing SP undoes decrementing it. -/
theorem State.reg_incSp_of_decSp {s t : State} (h : SameRegs s.decSp t) : SameRegs s t.incSp := by
  intro q
  rw [State.reg_incSp, h, h, State.reg_decSp_spReg, State.reg_decSp]
  split
  · subst_vars
    exact BitVec.sub_add_cancel ..
  · rfl

/-- Settles O31: POP finds the byte PUSH stored, which is what register a holds already, and the increment of SP undoes the
decrement. -/
theorem pushThenPopRestoresTheRegisters : Obligations.PushThenPopRestoresTheRegisters := by
  intro a s ha hwf
  have hread := State.read_pushByte_same hwf (s.decSp.reg ⟨a.toNat, ha⟩)
  refine ⟨_, _, exec_push ha, exec_pop ha, ?_, ?_, s.sameMemBut_pushByte _, rfl⟩
  · refine State.reg_incSp_of_decSp fun q => ?_
    change (s.decSp.setReg ⟨a.toNat, ha⟩ ((s.pushByte (s.decSp.reg ⟨a.toNat, ha⟩)).mem.read s.decSp.stackTop)).reg q = _
    rw [hread, State.reg_setReg_self]
  · refine hread.trans ?_
    rw [State.reg_decSp_index, State.reg_decSp_spReg]

/-- Settles O34: RET finds the return address where CALL left it, and the increment of SP undoes the decrement. -/
theorem retReturnsBehindTheMatchingCall : Obligations.RetReturnsBehindTheMatchingCall := by
  intro a s s1 s2 hwf hrun hpc hd ha hstep hrun2 hpc2 hd2 htop hbyte
  rw [step_of_fetch_fits hrun hpc, hd] at hstep
  obtain rfl := Host.Outcome.next.inj ((exec_call ha).symm.trans hstep)
  refine ⟨_, (step_of_fetch_fits hrun2 hpc2).trans (by rw [hd2]; exact exec_ret s2), ?_, ?_⟩
  · calc (s2.mem.read s2.stackTop).toNat
      _ = ((s.pushByte (BitVec.ofNat 8 (s.pc + 2))).mem.read s.decSp.stackTop).toNat := by rw [htop, hbyte]; rfl
      _ = s.pc + 2 := by rw [State.read_pushByte_same hwf, toNat_returnAddress hpc]
  · have hsp : s2.reg spReg = s.reg spReg - 1 := (BitVec.eq_of_toNat_eq htop).trans s.reg_decSp_spReg
    rw [State.stackTop, State.reg_incSp, if_pos rfl, State.reg_setPc, hsp, BitVec.sub_add_cancel]
    rfl

end Sys2Proof.Machine
